-- ==== Sys2Proof/Word.lean ====
section
/-! DEFINITION. The widths the spec gives values (spec/00_scope.md R5, R6): every value is an unsigned bit vector of a
stated width, bit 0 its least significant bit. -/

namespace Sys2Proof

/-- A byte of a buffer, and the command word: 8 bits, unsigned (R30, R50, R60). -/
abbrev Byte := BitVec 8

/-- A type-detail backing value, and operand B: 32 bits (R12, R62). -/
abbrev Word32 := BitVec 32

/-- Operand A and the result field: 64 bits (R12, R16). -/
abbrev Word64 := BitVec 64

end Sys2Proof
end

