-- ==== Sys2Proof/Config.lean ====
section
/-! DEFINITION. The parameters of the block (spec/00_scope.md R5), and the model's one free value. `LATENCY` has no
counterpart: a command is one step and the model keeps no time (spec/70_reset_and_hazards.md R198). -/

namespace Sys2Proof.Config

/-- `W32`, the value width of the 32-bit varint operations (R5). -/
abbrev w32 : Nat := 32

/-- `W64`, the value width of the 64-bit varint operations (R5). -/
abbrev w64 : Nat := 64

/-- `CAP32`, the most bytes of a 32-bit varint (R5, R59). -/
abbrev cap32 : Nat := 5

/-- `CAP64`, the most bytes of a 64-bit varint (R5, R59). -/
abbrev cap64 : Nat := 10

/-- `CHUNK`, the payload bits of one varint byte (R5, R58). -/
abbrev chunk : Nat := 7

/-- `NATIVE_BYTES`, the bytes that `initialize` consumes (R5, R66, R138). -/
abbrev nativeBytes : Nat := 4

/-- `MAXOFF`, the highest buffer offset the block can access (R5, R30). -/
abbrev maxOff : Nat := 9

/-- The least value of the OPEN parameter `LENW` (R5). -/
abbrev lenwMin : Nat := 4

/-- The default of the OPEN parameter `LENW` (R5). -/
abbrev lenwDefault : Nat := 8

/-- The length a host declares for a buffer of `real` bytes on a port whose `buf.len` has `lenw` bits: a longer buffer
is declared as `2^lenw - 1` (R13). `LENW` is OPEN, so it is an argument; the meanings take any declared length. -/
def declaredLength (lenw real : Nat) : Nat := min real (2 ^ lenw - 1)

/-- `TD_NEW`, the value of `TypeDetail::new()`: a constant the host writes into `cmd.a`, not an operation (R140). -/
def tdNew : Word32 := 0

/-- FREE VALUE (log entry 6). Whether, at the `k`-th command that a reset abandoned, the byte at offset `off` of its encoding had
already been written: spec/70_reset_and_hazards.md R192, "old or new byte, each offset independently". It has no body. -/
opaque abandonedByteLanded : Nat → Nat → Bool

end Sys2Proof.Config
end

