-- ==== Sys2Proof/Syntax.lean ====
section
/-! DEFINITION. The thirteen operations (spec/30_encoding.md R51, spec/44_absent_classes.md R150), one constructor per row
of the opcode table. The one field of each is bit 4 of the command word, `strict` (R50): every operation carries the bit,
four of them read it (R56). The operands are fields of the command record, not of the command word (R67). -/

namespace Sys2Proof

/-- An operation as the command word selects it. -/
inductive Instr where
  /-- `read_varint_u32` (R81) -/
  | readVarintU32 (strict : Bool)
  /-- `write_varint_u32` (R101) -/
  | writeVarintU32 (strict : Bool)
  /-- `read_varint_u64` (R83) -/
  | readVarintU64 (strict : Bool)
  /-- `write_varint_u64` (R102) -/
  | writeVarintU64 (strict : Bool)
  /-- `read_varint_i32` (R121) -/
  | readVarintI32 (strict : Bool)
  /-- `write_varint_i32` (R122) -/
  | writeVarintI32 (strict : Bool)
  /-- `read_varint_i64` (R123) -/
  | readVarintI64 (strict : Bool)
  /-- `write_varint_i64` (R124) -/
  | writeVarintI64 (strict : Bool)
  /-- `kind_get` (R132) -/
  | kindGet (strict : Bool)
  /-- `kind_set` (R134) -/
  | kindSet (strict : Bool)
  /-- `ordinal_get` (R136) -/
  | ordinalGet (strict : Bool)
  /-- `ordinal_set` (R137) -/
  | ordinalSet (strict : Bool)
  /-- `initialize` (R138); Lean keeps that word for itself, hence the name -/
  | initDetail (strict : Bool)
  deriving DecidableEq, Repr

namespace Instr

/-- The opcode `op` of R51's map. -/
def opcode : Instr → BitVec 4
  | readVarintU32 _ => 0x0#4
  | writeVarintU32 _ => 0x1#4
  | readVarintU64 _ => 0x2#4
  | writeVarintU64 _ => 0x3#4
  | readVarintI32 _ => 0x4#4
  | writeVarintI32 _ => 0x5#4
  | readVarintI64 _ => 0x6#4
  | writeVarintI64 _ => 0x7#4
  | kindGet _ => 0x8#4
  | kindSet _ => 0x9#4
  | ordinalGet _ => 0xA#4
  | ordinalSet _ => 0xB#4
  | initDetail _ => 0xC#4

/-- Bit 4 of the command word (R50). -/
def strict : Instr → Bool
  | readVarintU32 b | writeVarintU32 b | readVarintU64 b | writeVarintU64 b | readVarintI32 b | writeVarintI32 b
  | readVarintI64 b | writeVarintI64 b | kindGet b | kindSet b | ordinalGet b | ordinalSet b | initDetail b => b

/-- The mnemonic of the opcode map (R51). -/
def mnemonic : Instr → String
  | readVarintU32 _ => "read_varint_u32"
  | writeVarintU32 _ => "write_varint_u32"
  | readVarintU64 _ => "read_varint_u64"
  | writeVarintU64 _ => "write_varint_u64"
  | readVarintI32 _ => "read_varint_i32"
  | writeVarintI32 _ => "write_varint_i32"
  | readVarintI64 _ => "read_varint_i64"
  | writeVarintI64 _ => "write_varint_i64"
  | kindGet _ => "kind_get"
  | kindSet _ => "kind_set"
  | ordinalGet _ => "ordinal_get"
  | ordinalSet _ => "ordinal_set"
  | initDetail _ => "initialize"

/-- Whether the operation reads the `strict` bit: the four readers and no other (R56). -/
def readsStrict : Instr → Bool
  | readVarintU32 _ | readVarintU64 _ | readVarintI32 _ | readVarintI64 _ => true
  | writeVarintU32 _ | writeVarintU64 _ | writeVarintI32 _ | writeVarintI64 _ => false
  | kindGet _ | kindSet _ | ordinalGet _ | ordinalSet _ | initDetail _ => false

/-- The operation's head in the textual form: the suffix `.strict` sets `cmd.word[4]` on the readers (R69). -/
def text (i : Instr) : String :=
  if i.readsStrict && i.strict then i.mnemonic ++ ".strict" else i.mnemonic

/-- The pseudo-operations that expand to exactly one command (R70); `TypeDetail::new()` is `Config.tdNew`. -/
def pseudoOps : List (String × Instr) :=
  [("TypeDetail.kind", kindGet false), ("TypeDetail.with_kind", kindSet false), ("TypeDetail.ordinal", ordinalGet false),
   ("TypeDetail.with_ordinal", ordinalSet false), ("TypeDetail.from_bytes", initDetail false)]

end Instr

end Sys2Proof
end

