-- ==== Sys2Proof/WellFormed.lean ====
section
/-! DEFINITION. What a command must satisfy before the block can perform an operation for it: a command word whose
reserved bits are clear and whose opcode names an operation (spec/30_encoding.md R50, R55), and a declared length that the
port can carry (spec/10_state.md R13). -/

namespace Sys2Proof

/-- `cmd.word[7:5]` is 0 (R50, R193). -/
def reservedClear (w : Byte) : Bool := w.extractLsb' 5 3 == 0

/-- The opcode is one of the thirteen: 0x0 to 0xC (R51, R55). -/
def opcodeDefined (op : BitVec 4) : Bool := op.toNat ≤ 0xC

/-- The command word selects an operation (R55). -/
def wordDefined (w : Byte) : Bool := reservedClear w && opcodeDefined (w.extractLsb' 0 4)

/-- `buf.len` fits the port's `lenw` bits, and the port is at least 4 bits wide (R5, R13). -/
def lengthFits (lenw len : Nat) : Bool := decide (Config.lenwMin ≤ lenw) && decide (len < 2 ^ lenw)

/-- An operation is well formed when its opcode is defined. Its only field is the strict bit, of which both values are
legal on every operation (R56), so every term passes. -/
def Instr.wellFormed (i : Instr) : Bool := opcodeDefined i.opcode

end Sys2Proof
end

