-- ==== Sys2Proof/Decode.lean ====
section
/-! DEFINITION. The command word (spec/30_encoding.md R50, R51, R55): the decoder, total on any bytes and rejecting by
name, and the encoder, written from the same map. -/

namespace Sys2Proof

/-- Why a command word selects no operation (R55). -/
inductive Reject where
  /-- there is no byte to decode -/
  | noWord
  /-- a bit of `cmd.word[7:5]` is set -/
  | reservedBits
  /-- `op` is 0xD, 0xE or 0xF -/
  | reservedOpcode
  deriving DecidableEq, Repr

/-- The opcode map (R51); opcodes 0xD to 0xF are reserved (R55). -/
def decodeOpcode (op : BitVec 4) (strict : Bool) : Except Reject Instr :=
  match op.toNat with
  | 0x0 => .ok (.readVarintU32 strict)
  | 0x1 => .ok (.writeVarintU32 strict)
  | 0x2 => .ok (.readVarintU64 strict)
  | 0x3 => .ok (.writeVarintU64 strict)
  | 0x4 => .ok (.readVarintI32 strict)
  | 0x5 => .ok (.writeVarintI32 strict)
  | 0x6 => .ok (.readVarintI64 strict)
  | 0x7 => .ok (.writeVarintI64 strict)
  | 0x8 => .ok (.kindGet strict)
  | 0x9 => .ok (.kindSet strict)
  | 0xA => .ok (.ordinalGet strict)
  | 0xB => .ok (.ordinalSet strict)
  | 0xC => .ok (.initDetail strict)
  | _ => .error .reservedOpcode

/-- Decodes a command word: `op = word[3:0]`, `strict = word[4]`, `word[7:5]` must be 0 (R50, R55). -/
def decodeWord (w : Byte) : Except Reject Instr :=
  if w.extractLsb' 5 3 = 0 then decodeOpcode (w.extractLsb' 0 4) (w.getLsbD 4) else .error .reservedBits

/-- Decodes the first command word of a byte sequence and returns the rest: every command word is one byte (R50, R68). -/
def decode : List Byte → Except Reject (Instr × List Byte)
  | [] => .error .noWord
  | w :: rest =>
    match decodeWord w with
    | .ok i => .ok (i, rest)
    | .error r => .error r

/-- The command word of an operation: reserved bits 0, then the strict bit, then the opcode (R50, R51). -/
def encodeWord (i : Instr) : Byte := (0 : BitVec 3) ++ BitVec.ofBool i.strict ++ i.opcode

/-- The bytes of an operation: its one command word (R50). -/
def encode (i : Instr) : List Byte := [encodeWord i]

/-- A row of the opcode table: `word & mask = pattern` selects the mnemonic (R51). -/
structure OpcodeRow where
  /-- the row's name -/
  mnemonic : String
  /-- the bits a matching word has under the mask -/
  pattern : Byte
  /-- the bits that are checked: all but `strict` -/
  mask : Byte
  deriving DecidableEq, Repr

/-- The opcode table as the spec prints it (R51, spec/opcode_table.json). -/
def opcodeTable : List OpcodeRow :=
  [⟨"read_varint_u32", 0x00#8, 0xEF#8⟩, ⟨"write_varint_u32", 0x01#8, 0xEF#8⟩, ⟨"read_varint_u64", 0x02#8, 0xEF#8⟩,
   ⟨"write_varint_u64", 0x03#8, 0xEF#8⟩, ⟨"read_varint_i32", 0x04#8, 0xEF#8⟩, ⟨"write_varint_i32", 0x05#8, 0xEF#8⟩,
   ⟨"read_varint_i64", 0x06#8, 0xEF#8⟩, ⟨"write_varint_i64", 0x07#8, 0xEF#8⟩, ⟨"kind_get", 0x08#8, 0xEF#8⟩,
   ⟨"kind_set", 0x09#8, 0xEF#8⟩, ⟨"ordinal_get", 0x0A#8, 0xEF#8⟩, ⟨"ordinal_set", 0x0B#8, 0xEF#8⟩, ⟨"initialize", 0x0C#8, 0xEF#8⟩]

/-- The row of the table that a command word matches. -/
def tableMnemonic (w : Byte) : Option String :=
  (opcodeTable.find? fun row => w &&& row.mask == row.pattern).map (·.mnemonic)

/-- What the decoder reads from a word numbered as the opcode table numbers it. A command word has 8 bits (R50), so a
number that needs more is no command word. -/
def decodeTableWord (_nbits w : Nat) : Option Instr :=
  if w < 256 then
    match decode [BitVec.ofNat 8 w] with
    | .ok (i, _) => some i
    | .error _ => none
  else none

end Sys2Proof
end

