-- ==== Sys2Proof/Machine/State.lean ====
section
/-! DEFINITION. The state of the machine at the level of spec/10_state.md R10: one command, one atomic step. The block has
no register, no program counter, no flag and no control register (R11, R14, R15, R17, R18); what the state holds is the
caller's buffers (R11, R30), the command record the block accepted last (R12, R13), its response (R16) and buffer accesses
(R37, R38), the reset input (R191), and what the host does next (R10, R151). -/

namespace Sys2Proof.Machine

/-- The status of a response (R54, R160). Codes 5 to 7 are never produced. -/
inductive Status where
  /-- success -/
  | ok
  /-- an absent buffer, or one shorter than the bytes needed (R161) -/
  | invalidArgument
  /-- `kind_get` on a kind of 4 to 15 (R162) -/
  | unrecognizedKind
  /-- strict mode: every byte up to the cap had bit 7 set (R164) -/
  | truncated
  /-- a reserved command word (R165) -/
  | illegalOp
  deriving DecidableEq, Repr

/-- The response record (R16). -/
structure Response where
  /-- `rsp.status` -/
  status : Status
  /-- `rsp.r` -/
  r : Word64
  /-- `rsp.count` -/
  count : BitVec 8
  deriving DecidableEq, Repr

/-- The buffer operand (R13). `base` is the host's own: where offset 0 lies in its memory. The block never sees it; it
knows offsets only (R30). -/
structure Buffer where
  /-- `buf.present`: false is the document's null or absent buffer (R197) -/
  present : Bool
  /-- `buf.len`, the declared length in bytes, of whatever width `LENW` the port has (R5, log entry 3) -/
  len : Nat
  /-- the address of offset 0 in the host's memory (log entry 1) -/
  base : Nat
  deriving DecidableEq, Repr

/-- The command record (R12), sampled when the block accepts the command. -/
structure Command where
  /-- `cmd.word` -/
  word : Byte
  /-- `cmd.a` -/
  a : Word64
  /-- `cmd.b` -/
  b : Word32
  /-- `buf` -/
  buf : Buffer
  deriving DecidableEq, Repr

/-- One byte access at the buffer port (R22 `buf_re`, `buf_we`, `buf_off`, `buf_wdata`; R37, R38). -/
inductive Access where
  /-- `MemRead(off, 1)` (R31) -/
  | read (off : Nat)
  /-- `MemWrite(off, 1, v)` (R32) -/
  | write (off : Nat) (v : Byte)
  deriving DecidableEq, Repr

/-- The buffer offset of an access. -/
def Access.offset : Access → Nat
  | .read off => off
  | .write off _ => off

/-- One byte access to the host's memory by an agent other than the block, while a command is in flight (R48, R172). -/
inductive Touch where
  /-- the agent reads the byte at the address -/
  | read (addr : Nat)
  /-- the agent writes the byte at the address -/
  | write (addr : Nat) (v : Byte)
  deriving DecidableEq, Repr

/-- What the host does next (R10, R151). -/
inductive HostAct where
  /-- the host writes a byte of its own memory, between commands (R44, R193) -/
  | hostWrite (addr : Nat) (v : Byte)
  /-- the host offers a command and waits for its response (R196) -/
  | issue (c : Command)
  /-- a command is offered while another agent makes these accesses (R48, R172, R195) -/
  | issueBeside (c : Command) (others : List Touch)
  /-- a command is accepted, and `rst` is sampled high before its response (R192) -/
  | issueThenReset (c : Command)
  /-- the level of the reset input from here on (R191) -/
  | setRst (level : Bool)
  deriving DecidableEq, Repr

/-- Why the machine stops with a fault: never. The block has no trap: every failure is a status in a response, and no
control goes anywhere (R163, R168, spec/44_absent_classes.md R153). No instruction raises a fault. -/
inductive Fault where
  deriving DecidableEq, Repr

/-- Why an execution has no meaning in the model. -/
inductive Refusal where
  /-- An instruction that has no meaning yet. No arm of `exec` is rejected this way. Safe. -/
  | notModelled (mnemonic : String)
  /-- Raised by the eight varint operations and `initialize`, and by a reset of one in flight: a present buffer whose
  declared bytes are not all the caller's (R49, R194, spec/93_implementation_defined.md U2). Safe. -/
  | untruthfulBuffer
  /-- Raised by a command beside whose execution another agent writes its buffer, or reads the buffer of a write command
  (R48, R195, spec/93_implementation_defined.md U3; log entry 12). Safe. -/
  | sharedBuffer
  /-- The write loop at its cap with bits left: the spec does not decide the last byte (R104, 91_not_in_source.md N6)
  and no input of the two widths reaches it (R104), so no instruction raises it. Safe. -/
  | writeCapBitsLeft
  deriving DecidableEq, Repr

/-- The machine's state. Plain data. -/
structure State where
  /-- The host's memory, its addresses strictly rising: the bytes of the caller's buffers (R11, R30). An address that is
  not listed is no byte of the caller's (log entry 2). -/
  mem : List Host.Cell
  /-- addresses that the platform does not let the block read (R41, R49; log entry 8) -/
  unreadable : List Nat
  /-- addresses that the platform does not let the block write (R41, R49) -/
  unwritable : List Nat
  /-- what the host does from here on, in its order (R43, R151) -/
  pending : List HostAct
  /-- the level of the reset input, as last sampled (R191) -/
  rst : Bool
  /-- the command record that was accepted last (R12) -/
  cmd : Command
  /-- the last response, if one was given since reset (R16, R21: `rsp_valid`) -/
  rsp : Option Response
  /-- the buffer accesses of the command that was answered last, oldest first (R37, R38) -/
  accesses : List Access
  /-- the MODEL's own: how many commands a reset has abandoned; it indexes the free value (log entry 6) -/
  freeCount : Nat
  deriving DecidableEq, Repr

/-- The command port's fields before any command: inputs, not reset (R21; log entry 4). -/
def Command.idle : Command := { word := 0, a := 0, b := 0, buf := { present := false, len := 0, base := 0 } }

/-- The machine right after reset (R21, R190, R191): no response, no access, the reset input low again, nothing held. -/
def State.reset : State :=
  { mem := [], unreadable := [], unwritable := [], pending := [], rst := false, cmd := Command.idle, rsp := none
    accesses := [], freeCount := 0 }

end Sys2Proof.Machine
end

