-- ==== Sys2Proof/Machine/Flags.lean ====
section
/-! DEFINITION. The block has no flags and no condition codes (spec/10_state.md R17): the one condition it reports is the
status of a response. Here are the status codes and the tests that choose a status (spec/60_exceptions.md R160 to R165). -/

namespace Sys2Proof.Machine

/-- The 3-bit code of a status (R54). -/
def Status.code : Status → BitVec 3
  | .ok => 0
  | .invalidArgument => 1
  | .unrecognizedKind => 2
  | .truncated => 3
  | .illegalOp => 4

/-- The status a 3-bit code names; 5 to 7 are never produced (R54). -/
def Status.ofCode (c : BitVec 3) : Option Status :=
  match c.toNat with
  | 0 => some .ok
  | 1 => some .invalidArgument
  | 2 => some .unrecognizedKind
  | 3 => some .truncated
  | 4 => some .illegalOp
  | _ => none

/-- The named wire kinds (R63). -/
inductive Kind where
  /-- 0 -/
  | varint
  /-- 1 -/
  | fixed32
  /-- 2 -/
  | fixed64
  /-- 3 -/
  | lengthDelimited
  deriving DecidableEq, Repr

/-- The name of a kind field; 4 to 15 have none (R63). -/
def Kind.ofField (k : BitVec 4) : Option Kind :=
  match k.toNat with
  | 0 => some .varint
  | 1 => some .fixed32
  | 2 => some .fixed64
  | 3 => some .lengthDelimited
  | _ => none

/-- The status of `kind_get`: a kind of 4 to 15 is unrecognized (R133, R162). -/
def kindStatus (k : BitVec 4) : Status := if 4 ≤ k.toNat then .unrecognizedKind else .ok

/-- The status of a read whose bytes up to the cap all have bit 7 set (R85, R86, R164). -/
def capStatus (strict : Bool) : Status := if strict then .truncated else .ok

/-- A status as a test against the bytes needed: the declared length is shorter than them (R105, R138, R161). -/
def lengthStatus (len needed : Nat) : Status := if len < needed then .invalidArgument else .ok

end Sys2Proof.Machine
end

