-- ==== Sys2Proof/Machine/Operands.lean ====
section
/-! DEFINITION. How the operands of a command are assembled (spec/30_encoding.md R52, R67), the varint byte (R58 to R61)
and the fields of a type detail (R62, R66). Narrowing drops high bits and widening fills with zeros, always (R67). -/

namespace Sys2Proof.Machine

/-- How an operation uses the buffer (R33, R52). -/
inductive BufferUse where
  /-- the operation ignores `buf` -/
  | ignores
  /-- the operation reads the buffer -/
  | reads
  /-- the operation writes the buffer -/
  | writes
  deriving DecidableEq, Repr

/-- Which operations reach the buffer (R33). -/
def bufferUse : Instr → BufferUse
  | .readVarintU32 _ | .readVarintU64 _ | .readVarintI32 _ | .readVarintI64 _ => .reads
  | .writeVarintU32 _ | .writeVarintU64 _ | .writeVarintI32 _ | .writeVarintI64 _ => .writes
  | .kindGet _ | .kindSet _ | .ordinalGet _ | .ordinalSet _ => .ignores
  | .initDetail _ => .reads

/-- `trunc_N`: the low `N` bits (R7). -/
def trunc (n : Nat) {w : Nat} (v : BitVec w) : BitVec n := v.setWidth n

/-- `zext_64`, the form every result takes in `rsp.r` (R16, R67); a value of at most 64 bits. -/
def zext64 {w : Nat} (v : BitVec w) : Word64 := v.setWidth 64

/-- `cmd.a[31:0]`: a 32-bit value, a 32-bit signed pattern or a detail (R52). -/
def operandLow (c : Command) : Word32 := c.a.extractLsb' 0 32

/-- `cmd.a[63:0]`: a 64-bit value or pattern (R52). -/
def operandFull (c : Command) : Word64 := c.a

/-- `cmd.b[3:0]`, the new kind (R52). -/
def operandKind (c : Command) : BitVec 4 := c.b.extractLsb' 0 4

/-- `cmd.b[23:0]`, the new ordinal (R52). -/
def operandOrdinal (c : Command) : BitVec 24 := c.b.extractLsb' 0 24

/-- `as_unsigned_W`: a signed value's pattern as an unsigned value, the identity on the bits (R120). -/
def asUnsigned {w : Nat} (p : BitVec w) : BitVec w := p

/-- `as_signed_W`: the identity on the bits (R120). -/
def asSigned {w : Nat} (p : BitVec w) : BitVec w := p

/-- The payload chunk of a varint byte, bits [6:0] (R58, R60). -/
def chunkOf (b : Byte) : BitVec 7 := b.extractLsb' 0 7

/-- The continuation flag of a varint byte, bit 7 (R58). -/
def continues (b : Byte) : Bool := b.getLsbD 7

/-- A varint byte: `{flag, chunk}` (R58). -/
def varintByte (flag : Bool) (chunk : BitVec 7) : Byte := BitVec.ofBool flag ++ chunk

/-- `trunc_W( zext(chunk) << (7*i) )`: the chunk of the byte at index `i`, bits above the accumulator dropped (R80, R82). -/
def placeChunk (w i : Nat) (b : Byte) : BitVec w := (chunkOf b).setWidth w <<< (Config.chunk * i)

/-- The position of the highest set bit below `n`, plus 1; 0 when there is none. -/
def highestSet {w : Nat} (v : BitVec w) : Nat → Nat
  | 0 => 0
  | n + 1 => if v.getLsbD n then n + 1 else highestSet v n

/-- `bitlen(v)`: the position of the highest set bit plus 1 (R61). -/
def bitLen {w : Nat} (v : BitVec w) : Nat := highestSet v w

/-- `len(v)`: 1 for 0, otherwise `ceil(bitlen(v) / 7)` (R61). -/
def varintLen {w : Nat} (v : BitVec w) : Nat := if v = 0 then 1 else (bitLen v + 6) / 7

/-- The kind field, bits [7:4] (R62). -/
def kindField (d : Word32) : BitVec 4 := d.extractLsb' 4 4

/-- The ordinal field, bits [31:8] (R62). -/
def ordinalField (d : Word32) : BitVec 24 := d.extractLsb' 8 24

/-- The reserved bits [3:0] (R62, R65). -/
def reservedField (d : Word32) : BitVec 4 := d.extractLsb' 0 4

/-- `(d & 0xFFFFFF0F) | (zext_32(k) << 4)` (R134). -/
def withKind (d : Word32) (k : BitVec 4) : Word32 := (d &&& 0xFFFFFF0F#32) ||| (k.setWidth 32 <<< 4)

/-- `(d & 0x000000FF) | (zext_32(o) << 8)` (R137). -/
def withOrdinal (d : Word32) (o : BitVec 24) : Word32 := (d &&& 0x000000FF#32) ||| (o.setWidth 32 <<< 8)

/-- `{b3, b2, b1, b0}`: little-endian (R35, R66). -/
def detailOfBytes (b0 b1 b2 b3 : Byte) : Word32 := b3 ++ b2 ++ b1 ++ b0

end Sys2Proof.Machine
end

