-- ==== Sys2Proof/Machine/Ops.lean ====
section
/-! DEFINITION. The shared operations: the host's memory, the byte accesses at the buffer port (spec/20_memory.md R30 to
R32), and the two ways a command ends (spec/00_scope.md R7, spec/60_exceptions.md R163). An error is a returned status;
there is no trap entry and no return from one (R168, R169). -/

namespace Sys2Proof.Machine

/-- The outcome of a command in this machine. -/
abbrev Result := Host.Outcome State Fault Refusal

/-! ## Memory -/

/-- The byte at an address. THIS is what an unlisted address reads as: no byte of the caller's (log entry 2). -/
def Memory.byteAt : List Host.Cell → Nat → Option Byte
  | [], _ => none
  | (a, v) :: rest, addr => if a = addr then some v else Memory.byteAt rest addr

/-- Makes the byte at an address equal to `v`, keeping the addresses strictly rising. -/
def Memory.store : List Host.Cell → Nat → Byte → List Host.Cell
  | [], addr, v => [(addr, v)]
  | (a, w) :: rest, addr, v =>
    if addr < a then (addr, v) :: (a, w) :: rest
    else if a = addr then (addr, v) :: rest
    else (a, w) :: Memory.store rest addr v

/-- Every address of the list lies above `lo`, and they rise strictly. -/
def Memory.risesAbove (lo : Nat) : List Host.Cell → Bool
  | [] => true
  | (a, _) :: rest => decide (lo < a) && Memory.risesAbove a rest

/-- The canonical form: strictly rising addresses. No entry can equal what an unlisted address reads as. -/
def Memory.wf : List Host.Cell → Bool
  | [] => true
  | (a, _) :: rest => Memory.risesAbove a rest

/-! ## The buffer port -/

/-- Where an offset of the command's buffer lies in the host's memory (R30). -/
def bufferAddr (c : Command) (off : Nat) : Nat := c.buf.base + off

/-- The byte at an offset is the caller's and the block may read it (R49). -/
def readableAt (s : State) (off : Nat) : Bool :=
  (Memory.byteAt s.mem (bufferAddr s.cmd off)).isSome && !s.unreadable.contains (bufferAddr s.cmd off)

/-- The byte at an offset is the caller's and the block may write it (R49). -/
def writableAt (s : State) (off : Nat) : Bool :=
  (Memory.byteAt s.mem (bufferAddr s.cmd off)).isSome && !s.unwritable.contains (bufferAddr s.cmd off)

/-- Every offset below the declared length is readable (R49, R194). -/
def truthfulRead (s : State) : Bool := (List.range s.cmd.buf.len).all (readableAt s)

/-- Every offset below the declared length is writable (R49, R194). -/
def truthfulWrite (s : State) : Bool := (List.range s.cmd.buf.len).all (writableAt s)

/-- `MemRead(off, 1)` (R31): the byte, and the access at the port. -/
def memRead (off : Nat) (s : State) : Option (Byte × State) :=
  if readableAt s off then
    (Memory.byteAt s.mem (bufferAddr s.cmd off)).map fun v => (v, { s with accesses := s.accesses ++ [.read off] })
  else none

/-- `MemWrite(off, 1, v)` (R32): the memory after it, and the access at the port. -/
def memWrite (off : Nat) (v : Byte) (s : State) : Option State :=
  if writableAt s off then
    some { s with mem := Memory.store s.mem (bufferAddr s.cmd off) v, accesses := s.accesses ++ [.write off v] }
  else none

/-! ## The end of a command -/

/-- Gives the response (R16). -/
def respond (status : Status) (r : Word64) (count : Nat) (s : State) : State :=
  { s with rsp := some { status, r, count := BitVec.ofNat 8 count } }

/-- `return OK(r, count)` (R7). -/
def returnOk (r : Word64) (count : Nat) (s : State) : Result := .next (respond .ok r count s)

/-- `raise E(info)`: the one error response; `info` is 0 where none is given (R7, R163). -/
def raise (e : Status) (info : Word64) (s : State) : Result := .next (respond e info 0 s)

/-- What an operation that reads the buffer does first: an absent buffer is an error before any access (R87, R138, R167);
a buffer whose declared bytes are not the caller's has no meaning (R194; log entry 7). -/
def withReadBuffer (s : State) (go : State → Result) : Result :=
  if s.cmd.buf.present then
    if truthfulRead s then go s else .refused .untruthfulBuffer
  else raise .invalidArgument 0 s

/-- The same for an operation that writes the buffer (R105, R167, R194). -/
def withWriteBuffer (s : State) (go : State → Result) : Result :=
  if s.cmd.buf.present then
    if truthfulWrite s then go s else .refused .untruthfulBuffer
  else raise .invalidArgument 0 s

/-- The command's declared bytes are the caller's, as far as the operation uses the buffer (R194): the launch premise of
spec/93_implementation_defined.md U2. -/
def truthfulFor (i : Instr) (s : State) : Bool :=
  match bufferUse i with
  | .ignores => true
  | .reads => !s.cmd.buf.present || truthfulRead s
  | .writes => !s.cmd.buf.present || truthfulWrite s

end Sys2Proof.Machine
end

