-- ==== Sys2Proof/Machine/TypeDetail.lean ====
section
/-! DEFINITION. The type-detail header (spec/43_type_detail.md R130 to R142). The strict bit is ignored (R56). -/

namespace Sys2Proof.Machine

/-- `kind_get` (R132, R133): an unrecognized kind is an error that carries the kind number. -/
def execKindGet (_strict : Bool) (s : State) : Result :=
  match kindStatus (kindField (operandLow s.cmd)) with
  | .ok => returnOk (zext64 (kindField (operandLow s.cmd))) 0 s
  | e => raise e (zext64 (kindField (operandLow s.cmd))) s

/-- `kind_set` (R134, R135). -/
def execKindSet (_strict : Bool) (s : State) : Result :=
  returnOk (zext64 (withKind (operandLow s.cmd) (operandKind s.cmd))) 0 s

/-- `ordinal_get` (R136). -/
def execOrdinalGet (_strict : Bool) (s : State) : Result :=
  returnOk (zext64 (ordinalField (operandLow s.cmd))) 0 s

/-- `ordinal_set` (R137). -/
def execOrdinalSet (_strict : Bool) (s : State) : Result :=
  returnOk (zext64 (withOrdinal (operandLow s.cmd) (operandOrdinal s.cmd))) 0 s

/-- Reads offsets `i`, `i + 1`, … in ascending order, once each (R37). -/
def readBytes : Nat → Nat → State → Option (List Byte × State)
  | 0, _, s => some ([], s)
  | left + 1, i, s =>
    match memRead i s with
    | none => none
    | some (b, s1) =>
      match readBytes left (i + 1) s1 with
      | none => none
      | some (bs, s2) => some (b :: bs, s2)

/-- `initialize` (R138, R139). -/
def execInitDetail (_strict : Bool) (s : State) : Result :=
  withReadBuffer s fun s =>
    match lengthStatus s.cmd.buf.len Config.nativeBytes with
    | .ok =>
      match readBytes Config.nativeBytes 0 s with
      | some ([b0, b1, b2, b3], s1) => returnOk (zext64 (detailOfBytes b0 b1 b2 b3)) Config.nativeBytes s1
      | _ => .refused .untruthfulBuffer
    | e => raise e 0 s

end Sys2Proof.Machine
end

