-- ==== Sys2Proof/Machine/VarintRead.lean ====
section
/-! DEFINITION. Varint read, unsigned (spec/40_varint_read.md R80 to R90). -/

namespace Sys2Proof.Machine

/-- The loop of R80 from index `i` with `left` iterations to the cap: the index reaching the declared length (R87), a byte
with bit 7 clear (R84), or the cap (R85, R86), whichever comes first (R167). -/
def readLoop (w : Nat) (strict : Bool) : Nat → Nat → BitVec w → State → Result
  | 0, i, acc, s =>
    match capStatus strict with
    | .ok => returnOk (zext64 acc) i s
    | e => raise e 0 s
  | left + 1, i, acc, s =>
    if s.cmd.buf.len ≤ i then raise .invalidArgument 0 s
    else
      match memRead i s with
      | none => .refused .untruthfulBuffer
      | some (b, s1) =>
        if continues b then readLoop w strict left (i + 1) (acc ||| placeChunk w i b) s1
        else returnOk (zext64 (acc ||| placeChunk w i b)) (i + 1) s1

/-- `varint_read(W, CAP)` (R80). -/
def varintRead (w cap : Nat) (strict : Bool) (s : State) : Result :=
  withReadBuffer s (readLoop w strict cap 0 0)

/-- `read_varint_u32` (R81). -/
def execReadVarintU32 (strict : Bool) (s : State) : Result := varintRead Config.w32 Config.cap32 strict s

/-- `read_varint_u64` (R83). -/
def execReadVarintU64 (strict : Bool) (s : State) : Result := varintRead Config.w64 Config.cap64 strict s

end Sys2Proof.Machine
end

