-- ==== Sys2Proof/Machine/VarintWrite.lean ====
section
/-! DEFINITION. Varint write, unsigned (spec/41_varint_write.md R100 to R108). The strict bit is ignored (R56). -/

namespace Sys2Proof.Machine

/-- The loop of R100 from index `i` with `left` iterations to the cap. The cap with bits left is not reachable (R104). -/
def writeLoop {w : Nat} : Nat → Nat → BitVec w → State → Result
  | 0, _, _, _ => .refused .writeCapBitsLeft
  | left + 1, i, rem, s =>
    if rem >>> Config.chunk = 0 then
      match memWrite i (varintByte false (trunc 7 rem)) s with
      | none => .refused .untruthfulBuffer
      | some s1 => returnOk 0 (i + 1) s1
    else
      match memWrite i (varintByte true (trunc 7 rem)) s with
      | none => .refused .untruthfulBuffer
      | some s1 => writeLoop left (i + 1) (rem >>> Config.chunk) s1

/-- `varint_write(W, CAP, v)` (R100): the length test stands before the first write (R105). -/
def varintWrite {w : Nat} (cap : Nat) (v : BitVec w) (s : State) : Result :=
  withWriteBuffer s fun s =>
    match lengthStatus s.cmd.buf.len (varintLen v) with
    | .ok => writeLoop cap 0 v s
    | e => raise e 0 s

/-- `write_varint_u32` (R101). -/
def execWriteVarintU32 (_strict : Bool) (s : State) : Result := varintWrite Config.cap32 (operandLow s.cmd) s

/-- `write_varint_u64` (R102). -/
def execWriteVarintU64 (_strict : Bool) (s : State) : Result := varintWrite Config.cap64 (operandFull s.cmd) s

end Sys2Proof.Machine
end

