-- ==== Sys2Proof/Machine/VarintSigned.lean ====
section
/-! DEFINITION. The signed adapter (spec/42_varint_signed.md R120 to R127): the same bits on the unsigned datapath. The
readers answer the unsigned reader's response, since `as_signed_W` changes no bit and nothing is sign-extended (R126). -/

namespace Sys2Proof.Machine

/-- `read_varint_i32` (R121). -/
def execReadVarintI32 (strict : Bool) (s : State) : Result := varintRead Config.w32 Config.cap32 strict s

/-- `write_varint_i32` (R122). -/
def execWriteVarintI32 (_strict : Bool) (s : State) : Result :=
  varintWrite Config.cap32 (asUnsigned (operandLow s.cmd)) s

/-- `read_varint_i64` (R123). -/
def execReadVarintI64 (strict : Bool) (s : State) : Result := varintRead Config.w64 Config.cap64 strict s

/-- `write_varint_i64` (R124). -/
def execWriteVarintI64 (_strict : Bool) (s : State) : Result :=
  varintWrite Config.cap64 (asUnsigned (operandFull s.cmd)) s

end Sys2Proof.Machine
end

