-- ==== Sys2Proof/Machine/Dispatch.lean ====
section
/-! DEFINITION. One arm per operation (spec/30_encoding.md R51). -/

namespace Sys2Proof.Machine

/-- What an operation does on the command record that the block has accepted. -/
def exec (i : Instr) (s : State) : Host.Outcome State Fault Refusal :=
  match i with
  | .readVarintU32 strict => Sys2Proof.Machine.execReadVarintU32 strict s
  | .writeVarintU32 strict => Sys2Proof.Machine.execWriteVarintU32 strict s
  | .readVarintU64 strict => Sys2Proof.Machine.execReadVarintU64 strict s
  | .writeVarintU64 strict => Sys2Proof.Machine.execWriteVarintU64 strict s
  | .readVarintI32 strict => Sys2Proof.Machine.execReadVarintI32 strict s
  | .writeVarintI32 strict => Sys2Proof.Machine.execWriteVarintI32 strict s
  | .readVarintI64 strict => Sys2Proof.Machine.execReadVarintI64 strict s
  | .writeVarintI64 strict => Sys2Proof.Machine.execWriteVarintI64 strict s
  | .kindGet strict => Sys2Proof.Machine.execKindGet strict s
  | .kindSet strict => Sys2Proof.Machine.execKindSet strict s
  | .ordinalGet strict => Sys2Proof.Machine.execOrdinalGet strict s
  | .ordinalSet strict => Sys2Proof.Machine.execOrdinalSet strict s
  | .initDetail strict => Sys2Proof.Machine.execInitDetail strict s

end Sys2Proof.Machine
end

