-- ==== Sys2Proof/Machine/Port.lean ====
section
/-! DEFINITION. The command port and the host (spec/10_state.md R10, R12; spec/70_reset_and_hazards.md R190 to R196): how a
command is accepted and answered, what reset does, and what another agent may do meanwhile. -/

namespace Sys2Proof.Machine

/-- `cmd_ready` between commands: the block takes a command unless it is held in reset (R191, R196). -/
def cmdReady (s : State) : Bool := !s.rst

/-- `rsp_valid`: a response has been given (R21, R22). -/
def rspValid (s : State) : Bool := s.rsp.isSome

/-- Samples the command record (R12). Nothing of an earlier command stays (R11, R169). -/
def accept (c : Command) (s : State) : State := { s with cmd := c, rsp := none, accesses := [] }

/-- Performs the accepted command. The word is decoded before anything else is looked at (R167); a reserved word is
answered with `IllegalOp` (R55, R165). -/
def runCommand (s : State) : Result :=
  match decodeWord s.cmd.word with
  | .ok i => exec i s
  | .error _ => raise .illegalOp 0 s

/-- What an accepted command does to the host's memory when a reset abandons it: of the bytes the command would have
written, some are and some are not (R192). -/
def abandonedMem (k base : Nat) : List Access → List Host.Cell → List Host.Cell
  | [], m => m
  | .read _ :: rest, m => abandonedMem k base rest m
  | .write off v :: rest, m =>
    abandonedMem k base rest (if Config.abandonedByteLanded k off then Memory.store m (base + off) v else m)

/-- `rst` is sampled high: no response is valid and no strobe is up; no buffer is touched (R191). -/
def enterReset (s : State) : State := { s with rst := true, rsp := none, accesses := [] }

/-- `rst` is sampled high before the accepted command has answered (R192; log entry 15). -/
def abandon (s : State) : Result :=
  match runCommand s with
  | .next t =>
    .next { enterReset s with
      mem := abandonedMem s.freeCount s.cmd.buf.base t.accesses s.mem
      freeCount := s.freeCount + 1 }
  | .fault f => .fault f
  | .refused r => .refused r

/-- An address lies in the buffer the command declares (R13). -/
def inBuffer (c : Command) (addr : Nat) : Bool :=
  c.buf.present && decide (c.buf.base ≤ addr) && decide (addr < c.buf.base + c.buf.len)

/-- The access of another agent collides with a command that uses its buffer like this (R48, R195): a write of the buffer
always, a read of it when the command writes. -/
def touchConflicts (c : Command) : BufferUse → Touch → Bool
  | .ignores, _ => false
  | .reads, .read _ => false
  | .reads, .write addr _ => inBuffer c addr
  | .writes, .read addr => inBuffer c addr
  | .writes, .write addr _ => inBuffer c addr

/-- How a command uses its buffer; a reserved word does not access it (R55). -/
def commandUse (c : Command) : BufferUse :=
  match decodeWord c.word with
  | .ok i => bufferUse i
  | .error _ => .ignores

/-- The other agent's accesses collide with the command. -/
def shares (c : Command) (others : List Touch) : Bool := others.any (touchConflicts c (commandUse c))

/-- A write of the host's memory by an agent other than the block. -/
def hostStore (addr : Nat) (v : Byte) (s : State) : State := { s with mem := Memory.store s.mem addr v }

/-- The accesses of another agent, in its order; they come before the command's (R172; log entry 16). -/
def applyTouches : List Touch → State → State
  | [], s => s
  | .read _ :: rest, s => applyTouches rest s
  | .write addr v :: rest, s => applyTouches rest (hostStore addr v s)

/-- One act of the host. A command offered while `rst` is high is not accepted (R191; log entry 11). -/
def perform (act : HostAct) (s : State) : Result :=
  match act with
  | .hostWrite addr v => .next (hostStore addr v s)
  | .issue c => if cmdReady s then runCommand (accept c s) else .next s
  | .issueBeside c others =>
    if cmdReady s then
      if shares c others then .refused .sharedBuffer else runCommand (accept c (applyTouches others s))
    else .next (applyTouches others s)
  | .issueThenReset c => if cmdReady s then abandon (accept c s) else .next s
  | .setRst level => if level then .next (enterReset s) else .next { s with rst := false }

/-- Offers a command with this word, the operands being those on the port, before everything the host had in mind. -/
def offerWord (word : Byte) (s : State) : State :=
  { s with rst := false, pending := .issue { s.cmd with word := word } :: s.pending }

end Sys2Proof.Machine
end

