-- ==== Sys2Proof/Machine/Step.lean ====
section
/-! DEFINITION. One step: the next act of the host, and with a command the block's whole answer to it (spec/10_state.md
R10, spec/20_memory.md R43). The block never acts without a command: with nothing pending a step changes nothing (R10). -/

namespace Sys2Proof.Machine

/-- One step of the machine (log entry 9 for the step with nothing pending). -/
def step (s : State) : Host.Outcome State Fault Refusal :=
  match s.pending with
  | [] => .next s
  | act :: rest => perform act { s with pending := rest }

/-- Puts a command word where the next step takes it: the block fetches nothing (R15, R46), so the word goes into a command
that the host offers next (log entry 5). -/
def State.withFetchWord (s : State) (_nbits w : Nat) : State := offerWord (BitVec.ofNat 8 w) s

end Sys2Proof.Machine
end

