-- ==== Sys2Proof/Safety.lean ====
section
/-! DEFINITION. What counts as a safe run, and the terms the claims are written in: the invariant every step keeps, the
launch premise of spec/93_implementation_defined.md U2 and U3, and closed forms of the data formats of
spec/30_encoding.md that do not mention the loops of the meanings. -/

namespace Sys2Proof.Machine

/-! ## The invariant -/

/-- What a response record may hold (R16, R54): the count never exceeds 10, an error has count 0, and `r` is 0 on an error
other than `UnrecognizedKind`, where it is the unknown kind number 4 to 15. -/
def Response.shape (r : Response) : Bool :=
  match r.status with
  | .ok => decide (r.count.toNat ≤ 10)
  | .unrecognizedKind => decide (r.count = 0) && decide (4 ≤ r.r.toNat) && decide (r.r.toNat ≤ 15)
  | .invalidArgument | .truncated | .illegalOp => decide (r.count = 0) && decide (r.r = 0)

/-- The accesses of a command: offsets 0, 1, 2, … in ascending order, each once, at most ten of them, all of them reads or
all of them writes (R30, R37, R38, R198). -/
def Access.footprint (as : List Access) : Prop :=
  as.map Access.offset = List.range as.length ∧ as.length ≤ Config.maxOff + 1 ∧
    ((∀ x ∈ as, x = .read x.offset) ∨ (∀ x ∈ as, x ≠ .read x.offset))

/-- What holds of every state a run can reach, and of more states. -/
structure Inv (s : State) : Prop where
  /-- the memory is in its canonical form -/
  mem_wf : Memory.wf s.mem = true
  /-- the last response is a legal record -/
  rsp_shape : ∀ r, s.rsp = some r → r.shape = true
  /-- the last command's accesses are a legal footprint -/
  accesses_footprint : Access.footprint s.accesses
  /-- while the reset input is high no response is valid and no access has happened (R191) -/
  reset_quiet : s.rst = true → s.rsp = none ∧ s.accesses = []

/-! ## Safe runs -/

/-- The accepted command's declared bytes are the caller's, as far as its operation uses the buffer (R194). A reserved word
looks at no buffer (R167). -/
def commandTruthful (s : State) : Bool :=
  match decodeWord s.cmd.word with
  | .ok i => truthfulFor i s
  | .error _ => true

/-- The launch premise: the act that comes next is no command with an untruthful or a shared buffer (U2, U3). -/
def launchable (act : HostAct) (s : State) : Bool :=
  match act with
  | .hostWrite _ _ => true
  | .issue c => s.rst || commandTruthful (accept c s)
  | .issueBeside c others =>
    s.rst || (!shares c others && commandTruthful (accept c (applyTouches others s)))
  | .issueThenReset c => s.rst || commandTruthful (accept c s)
  | .setRst _ => true

/-- The responses that the host gets back in a run of `k` acts, in their order (R200). -/
def responsesOf : Nat → State → List Response
  | 0, _ => []
  | k + 1, s =>
    match s.pending, step s with
    | .issue _ :: _, .next t | .issueBeside _ _ :: _, .next t => t.rsp.toList ++ responsesOf k t
    | _, .next t => responsesOf k t
    | _, _ => []

/-- A run of `k` steps is safe: none of them stops. -/
def safeRun : Nat → State → Prop
  | 0, _ => True
  | k + 1, s => ∃ t, step s = .next t ∧ safeRun k t

/-! ## Closed forms -/

/-- The byte at an offset of the accepted command's buffer, as the model reads it. -/
def bufferByte (s : State) (off : Nat) : Option Byte := Memory.byteAt s.mem (bufferAddr s.cmd off)

/-- The buffer begins with these bytes. -/
def beginsWith (s : State) (bs : List Byte) : Prop := ∀ i b, bs[i]? = some b → bufferByte s i = some b

/-- A varint sequence: every byte but the last has bit 7 set, and the last has it clear (R59). -/
def terminated : List Byte → Bool
  | [] => false
  | [b] => !continues b
  | b :: rest => continues b && terminated rest

/-- The chunks of a sequence as one number, the least-significant chunk first; R59: "the OR is also a sum". -/
def payload : List Byte → Nat
  | [] => 0
  | b :: rest => (chunkOf b).toNat + 128 * payload rest

/-- The value of a sequence at width `w` (R59). -/
def sequenceValue (w : Nat) (bs : List Byte) : BitVec w := BitVec.ofNat w (payload bs)

/-- Byte `i` of the encoding of `v`: `{c_i, v[7i+6:7i]}`, with `c_i` 0 on the last byte alone (R103). -/
def encodedByte {w : Nat} (v : BitVec w) (i : Nat) : Byte :=
  varintByte (decide (i + 1 < varintLen v)) (v.extractLsb' (7 * i) 7)

/-- The encoding of `v` (R61, R103). -/
def encoding {w : Nat} (v : BitVec w) : List Byte := (List.range (varintLen v)).map (encodedByte v)

/-- The accesses that read offsets 0 to `n - 1`, ascending (R37). -/
def readsTo (n : Nat) : List Access := (List.range n).map Access.read

/-- The accesses that write the encoding of `v`, ascending (R38). -/
def writesOf {w : Nat} (v : BitVec w) : List Access :=
  (List.range (varintLen v)).map fun i => .write i (encodedByte v i)

end Sys2Proof.Machine
end

