-- ==== Sys2Proof/Certificates/Slice0/Obligations.lean ====
section
/-! DEFINITION. The statements for the provers, in the order of the spec's files. The terms they share come first. -/

namespace Sys2Proof.Claims

open Sys2Proof.Machine

/-- An operation that still lacks its strict bit. -/
abbrev Op := Bool → Instr

/-- The command names a buffer, and every byte it declares may be read (R49). -/
def CanRead (s : State) : Prop := s.cmd.buf.present = true ∧ ∀ off < s.cmd.buf.len, readableAt s off = true

/-- The command names a buffer, and every byte it declares may be written (R49). -/
def CanWrite (s : State) : Prop := s.cmd.buf.present = true ∧ ∀ off < s.cmd.buf.len, writableAt s off = true

/-- The state after a command that changed no memory: this response, and these accesses. Every other field is as before. -/
def answered (s : State) (r : Response) (accesses : List Access) : State :=
  { s with rsp := some r, accesses := s.accesses ++ accesses }

/-- The response of an outcome. -/
def responseOf : Result → Option Response
  | .next t => t.rsp
  | .fault _ => none
  | .refused _ => none

/-- The accepted command with other data operands, its word and buffer unchanged. -/
def withOperands (s : State) (a : Word64) (b : Word32) : State := { s with cmd := { s.cmd with a := a, b := b } }

/-- The offsets below `n` all hold a byte with bit 7 set. -/
def continuesTo (s : State) (n : Nat) : Prop := ∀ off < n, ∃ b, bufferByte s off = some b ∧ continues b = true

/-- The four readers with their width and cap (R80, R121, R123). -/
def Readers (P : Nat → Nat → Op → Prop) : Prop :=
  P 32 5 .readVarintU32 ∧ P 64 10 .readVarintU64 ∧
    P 32 5 .readVarintI32 ∧ P 64 10 .readVarintI64

/-- The four writers, each with its cap and the value it takes from the command (R52, R100, R122, R124). -/
def Writers (P : (w : Nat) → Nat → (Command → BitVec w) → Op → Prop) : Prop :=
  P 32 5 (fun c => c.a.extractLsb' 0 32) .writeVarintU32 ∧
    P 64 10 (fun c => c.a) .writeVarintU64 ∧
    P 32 5 (fun c => c.a.extractLsb' 0 32) .writeVarintI32 ∧
    P 64 10 (fun c => c.a) .writeVarintI64

/-- The state after a write that ended OK: the encoding at offsets 0 to `n - 1`, written in ascending order once each,
every other address of memory as before, and no other field changed but the response. -/
def Wrote {w : Nat} (s t : State) (v : BitVec w) : Prop :=
  (∀ i < varintLen v, bufferByte t i = some (encodedByte v i)) ∧
    (∀ addr, addr < s.cmd.buf.base ∨ s.cmd.buf.base + varintLen v ≤ addr →
      Memory.byteAt t.mem addr = Memory.byteAt s.mem addr) ∧
    t = { s with mem := t.mem, rsp := some ⟨.ok, 0, BitVec.ofNat 8 (varintLen v)⟩
                 accesses := s.accesses ++ writesOf v }

/-- Two commands agree on everything that an operation reads of them (R52): the buffer operand counts only where the
operation uses it, and its length and place only where it is present (R13). -/
def sameUse (i : Instr) (c c' : Command) : Prop :=
  let buf : Prop := c.buf = c'.buf ∨ (c.buf.present = false ∧ c'.buf.present = false)
  let low : Prop := c.a.extractLsb' 0 32 = c'.a.extractLsb' 0 32
  match i with
  | .readVarintU32 _ | .readVarintU64 _ | .readVarintI32 _ | .readVarintI64 _ | .initDetail _ => buf
  | .writeVarintU32 _ | .writeVarintI32 _ => low ∧ buf
  | .writeVarintU64 _ | .writeVarintI64 _ => c.a = c'.a ∧ buf
  | .kindGet _ | .ordinalGet _ => low
  | .kindSet _ => low ∧ c.b.extractLsb' 0 4 = c'.b.extractLsb' 0 4
  | .ordinalSet _ => low ∧ c.b.extractLsb' 0 24 = c'.b.extractLsb' 0 24

/-- Two states in which a command sees the same bytes and the same permissions below its declared length. -/
def sameBuffer (s s' : State) : Prop :=
  ∀ off < s.cmd.buf.len, bufferByte s' off = bufferByte s off ∧ readableAt s' off = readableAt s off ∧
    writableAt s' off = writableAt s off

/-- A write command and a read command on the same buffer, issued one after the other: if the write ends OK with count `n`,
the read ends OK with the value that was written and the same count. The read may declare another length of at least `n`,
and either strict bit. -/
def RoundTrip (value : Command → Word64) (write read : Bool → Instr) : Prop :=
  ∀ (s t : State) (c1 c2 : Command) (b1 b2 : Bool) (rest : List HostAct) (r : Response),
    s.rst = false → s.pending = .issue c1 :: .issue c2 :: rest →
    decodeWord c1.word = .ok (write b1) → decodeWord c2.word = .ok (read b2) →
    step s = .next t → t.rsp = some r → r.status = .ok →
    c2.buf.present = true → c2.buf.base = c1.buf.base → r.count.toNat ≤ c2.buf.len →
    (∀ off < c2.buf.len, readableAt (accept c2 t) off = true) →
    ∃ u, step t = .next u ∧ u.rsp = some ⟨.ok, value c1, r.count⟩ ∧ u.mem = t.mem

end Sys2Proof.Claims

open Sys2Proof Sys2Proof.Machine Sys2Proof.Claims

/-! ## The command word -/

/-- Sanity: command words written out from R50 and R51 (`op` in [3:0], `strict` in [4]) decode to their operations. -/
def Obligations.SampleWordsDecode : Prop :=
  decodeWord 0b00000000#8 = .ok (.readVarintU32 false) ∧ decodeWord 0b00010010#8 = .ok (.readVarintU64 true) ∧
    decodeWord 0b00000001#8 = .ok (.writeVarintU32 false) ∧ decodeWord 0b00000111#8 = .ok (.writeVarintI64 false) ∧
    decodeWord 0b00010100#8 = .ok (.readVarintI32 true) ∧ decodeWord 0b00001000#8 = .ok (.kindGet false) ∧
    decodeWord 0b00001011#8 = .ok (.ordinalSet false) ∧ decodeWord 0b00011100#8 = .ok (.initDetail true) ∧
    decodeWord 0b00001101#8 = .error .reservedOpcode ∧ decodeWord 0b00101100#8 = .error .reservedBits

/-- Every operation decodes from its own command word, and the bytes after it are left. -/
def Obligations.DecodeOfEncode : Prop :=
  ∀ (i : Instr) (rest : List Byte), i.wellFormed = true → decode (encode i ++ rest) = .ok (i, rest)

/-- A word that decodes is the command word of what it decodes to: no two words share an operation. -/
def Obligations.EncodeOfDecode : Prop :=
  ∀ (w : Byte) (i : Instr), decodeWord w = .ok i → encodeWord i = w

/-- R51 and R55: a word decodes exactly when `word & 0xEF` is one of the opcodes 0x0 to 0xC, to the operation of that
row; otherwise its opcode is 0xD, 0xE or 0xF or one of bits [7:5] is set. -/
def Obligations.DecoderFollowsOpcodeTable : Prop :=
  ∀ w : Byte,
    (∃ i, decodeWord w = .ok i ∧ tableMnemonic w = some i.mnemonic ∧ i.strict = w.getLsbD 4 ∧
      w &&& 0xEF#8 = i.opcode.setWidth 8) ∨
    ((∃ e, decodeWord w = .error e) ∧ tableMnemonic w = none ∧
      (w.extractLsb' 5 3 ≠ 0 ∨ 0xD ≤ (w.extractLsb' 0 4).toNat))

/-! ## The step -/

/-- R10: a command that the host offers, while the block is not held in reset, is sampled and performed by one step. -/
def Obligations.StepRunsDecodedCommand : Prop :=
  ∀ (s : State) (c : Command) (rest : List HostAct) (i : Instr),
    s.pending = .issue c :: rest → s.rst = false → decodeWord c.word = .ok i →
    step s = exec i { s with pending := rest, cmd := c, rsp := none, accesses := [] }

/-- R55, R165, R167: a reserved word is answered with `IllegalOp`, whatever the buffer operand is; no buffer access, and no
byte of memory changes. -/
def Obligations.ReservedWordIsIllegalOp : Prop :=
  ∀ (s : State) (c : Command) (rest : List HostAct),
    s.pending = .issue c :: rest → s.rst = false →
    (0xD ≤ (c.word.extractLsb' 0 4).toNat ∨ c.word.extractLsb' 5 3 ≠ 0) →
    step s = .next { s with pending := rest, cmd := c, rsp := some ⟨.illegalOp, 0, 0⟩, accesses := [] }

/-- R10: "The block never acts without a command". -/
def Obligations.IdleWithoutCommand : Prop := ∀ s : State, s.pending = [] → step s = .next s

/-- R191: reset drops the response and the strobes and touches no buffer; a command offered while `rst` is high, alone, beside
another agent or with a further reset, is not accepted (that it is dropped is log entry 11): of it nothing happens but the
other agent's own accesses; when `rst` goes low the block is ready again. -/
def Obligations.ResetHoldsTheBlock : Prop :=
  ∀ (s : State) (rest : List HostAct),
    (s.pending = .setRst true :: rest →
      ∃ t, step s = .next t ∧ rspValid t = false ∧ cmdReady t = false ∧ t.accesses = [] ∧ t.mem = s.mem ∧
        t.pending = rest) ∧
    (cmdReady s = false →
      (∀ c, s.pending = .issue c :: rest → step s = .next { s with pending := rest }) ∧
      (∀ c, s.pending = .issueThenReset c :: rest → step s = .next { s with pending := rest }) ∧
      (∀ c others, s.pending = .issueBeside c others :: rest →
        step s = .next (applyTouches others { s with pending := rest }))) ∧
    (s.pending = .setRst false :: rest →
      ∃ t, step s = .next t ∧ cmdReady t = true ∧ t.rsp = s.rsp ∧ t.mem = s.mem ∧ t.pending = rest)

/-- R21, R191: right after reset no response is valid, no strobe is up and the block is ready; no byte is held. The memory
that is listed (none) is the model's choice, log entry 2. -/
def Obligations.ResetLeavesBlockReady : Prop :=
  rspValid State.reset = false ∧ State.reset.accesses = [] ∧ cmdReady State.reset = true ∧ State.reset.mem = [] ∧
    State.reset.pending = []

/-- R192: a command that a reset abandons gets no response. Of a write command that had passed its checks, each of the
offsets 0 to `len(v) - 1` holds its old or its new byte, each independently; every other address is unchanged. Any other
command has changed nothing: no writer, a reserved word, an absent buffer, a buffer shorter than `len(v)`. That the accesses
it may have made do not show afterwards is the model's choice, log entry 15 (R191 has the strobes low in reset). -/
def Obligations.AbandonedCommand : Prop :=
  (∀ (s : State) (c : Command) (rest : List HostAct),
    s.pending = .issueThenReset c :: rest → s.rst = false → commandTruthful (accept c s) = true →
    ∃ t, step s = .next t ∧ t.rsp = none ∧ t.rst = true ∧ t.accesses = [] ∧ t.pending = rest ∧
      (∀ i, decodeWord c.word = .ok i → bufferUse i ≠ .writes → t.mem = s.mem) ∧
      (∀ e, decodeWord c.word = .error e → t.mem = s.mem) ∧
      (c.buf.present = false → t.mem = s.mem)) ∧
  Writers fun _ _ value op =>
    ∀ (s : State) (c : Command) (rest : List HostAct) (b : Bool),
      s.pending = .issueThenReset c :: rest → s.rst = false → decodeWord c.word = .ok (op b) →
      CanWrite (accept c s) →
      ∃ t, step s = .next t ∧
        (varintLen (value c) ≤ c.buf.len →
          (∀ i < varintLen (value c), Memory.byteAt t.mem (c.buf.base + i) = Memory.byteAt s.mem (c.buf.base + i) ∨
            Memory.byteAt t.mem (c.buf.base + i) = some (encodedByte (value c) i)) ∧
          ∀ addr, addr < c.buf.base ∨ c.buf.base + varintLen (value c) ≤ addr →
            Memory.byteAt t.mem addr = Memory.byteAt s.mem addr) ∧
        (c.buf.len < varintLen (value c) → t.mem = s.mem)

/-- U3, R48, R195: another agent that writes a byte of the buffer of a command in flight, or reads one of a write command's,
has no meaning. -/
def Obligations.SharedBufferIsRefused : Prop :=
  ∀ (s : State) (c : Command) (others : List Touch) (rest : List HostAct) (i : Instr) (addr : Nat),
    s.pending = .issueBeside c others :: rest → s.rst = false → decodeWord c.word = .ok i →
    c.buf.present = true → c.buf.base ≤ addr → addr < c.buf.base + c.buf.len →
    ((bufferUse i ≠ .ignores ∧ ∃ v, Touch.write addr v ∈ others) ∨
      (bufferUse i = .writes ∧ Touch.read addr ∈ others)) →
    step s = .refused .sharedBuffer

/-- R172: beside accesses to other bytes a command answers as in either serial order: as if the other agent had come first,
and as if it had come after. -/
def Obligations.DisjointAgentsSerialize : Prop :=
  ∀ (s t : State) (c : Command) (others : List Touch) (rest : List HostAct),
    s.pending = .issueBeside c others :: rest → s.rst = false → shares c others = false →
    runCommand (accept c { s with pending := rest }) = .next t →
    ∃ u, step s = .next u ∧ u.rsp = t.rsp ∧ u.accesses = t.accesses ∧ u.pending = rest ∧
      (∀ addr, Memory.byteAt u.mem addr = Memory.byteAt (applyTouches others t).mem addr) ∧
      runCommand (accept c (applyTouches others { s with pending := rest })) = .next u

/-- The launch premise of U2 and U3 is exactly what a run needs: a step stops when, and only when, the next act breaks it. -/
def Obligations.LaunchableStepsComplete : Prop :=
  ∀ (s : State) (act : HostAct) (rest : List HostAct), s.pending = act :: rest →
    (launchable act { s with pending := rest } = true ↔ ∃ t, step s = .next t)

/-! ## Invariants -/

/-- The invariant holds right after reset. -/
def Obligations.InvariantAtReset : Prop := Inv State.reset

/-- From every state that meets the invariant, a step leads to one that meets it: the memory keeps its canonical form, the
response is a legal record (R16), the accesses are ascending from 0, below offset 10, all reads or all writes (R30, R37,
R38, R198), and a block held in reset shows neither (R191). -/
def Obligations.InvariantKeptByStep : Prop := ∀ s t : State, Inv s → step s = .next t → Inv t

/-- A run of any length that is not stopped is safe at every step and ends in a state that meets the invariant. -/
def Obligations.RunKeepsInvariant : Prop :=
  ∀ (k : Nat) (s t : State), Inv s → Host.Core.run Sys2Proof.core k s = .next t → Inv t ∧ safeRun k s

/-! ## What holds of every operation -/

/-- U2, R194: an operation answers when, and only when, the bytes it declares are the caller's as far as it uses the buffer;
otherwise it has no meaning. -/
def Obligations.OperationAnswersOnTruthfulBuffer : Prop :=
  ∀ (i : Instr) (s : State),
    (truthfulFor i s = true → ∃ t, exec i s = .next t) ∧
      (truthfulFor i s = false → exec i s = .refused .untruthfulBuffer)

/-- The frame of every operation: it gives a response and logs its accesses, and beside these it changes memory alone; an
operation that does not write the buffer changes no byte; a writer changes none outside its declared buffer. -/
def Obligations.OperationFrame : Prop :=
  ∀ (i : Instr) (s t : State), exec i s = .next t →
    t = { s with mem := t.mem, rsp := t.rsp, accesses := t.accesses } ∧ t.rsp.isSome = true ∧
      (bufferUse i ≠ .writes → t.mem = s.mem) ∧
      (∀ addr, addr < s.cmd.buf.base ∨ s.cmd.buf.base + s.cmd.buf.len ≤ addr ∨ s.cmd.buf.present = false →
        Memory.byteAt t.mem addr = Memory.byteAt s.mem addr)

/-- R39, R163: a command whose status is not OK has written no byte, its count is 0, and its `r` is 0 but for the unknown
kind number. -/
def Obligations.FailedCommandLeavesNoTrace : Prop :=
  ∀ (s t : State) (c : Command) (rest : List HostAct) (r : Response),
    s.pending = .issue c :: rest → s.rst = false → step s = .next t → t.rsp = some r → r.status ≠ .ok →
    t.mem = s.mem ∧ r.count = 0 ∧ (r.status ≠ .unrecognizedKind → r.r = 0) ∧
      (r.status = .unrecognizedKind → r.r = zext64 (c.a.extractLsb' 4 4))

/-- R56: on the nine operations that are no readers both values of the strict bit select the same behaviour; each of the
readers reads it. -/
def Obligations.StrictBitReadByReadersOnly : Prop :=
  (∀ (s : State) (b b' : Bool),
    exec (.writeVarintU32 b) s = exec (.writeVarintU32 b') s ∧ exec (.writeVarintU64 b) s = exec (.writeVarintU64 b') s ∧
    exec (.writeVarintI32 b) s = exec (.writeVarintI32 b') s ∧ exec (.writeVarintI64 b) s = exec (.writeVarintI64 b') s ∧
    exec (.kindGet b) s = exec (.kindGet b') s ∧ exec (.kindSet b) s = exec (.kindSet b') s ∧
    exec (.ordinalGet b) s = exec (.ordinalGet b') s ∧ exec (.ordinalSet b) s = exec (.ordinalSet b') s ∧
    exec (.initDetail b) s = exec (.initDetail b') s) ∧
  Readers fun _ _ op => ∃ s, responseOf (exec (op true) s) ≠ responseOf (exec (op false) s)

/-- R57: bits of the command that an operation does not use cannot change its outcome. -/
def Obligations.UnusedOperandsHaveNoInfluence : Prop :=
  ∀ (i : Instr) (s : State) (c' : Command), sameUse i s.cmd c' →
    (∀ t, exec i s = .next t → exec i { s with cmd := c' } = .next { t with cmd := c' }) ∧
      ∀ e, exec i s = .refused e → exec i { s with cmd := c' } = .refused e

/-- R11, R190: a response is a function of the command record and of the buffer's bytes, and of nothing else: not of where
the buffer lies, of earlier commands, of the reset history, or of the rest of memory. -/
def Obligations.ResponseDependsOnCommandAndBuffer : Prop :=
  ∀ (s s' t : State) (c c' : Command) (rest rest' : List HostAct),
    s.pending = .issue c :: rest → s'.pending = .issue c' :: rest' → s.rst = false → s'.rst = false →
    c' = { c with buf := { c.buf with base := c'.buf.base } } →
    (c.buf.present = true → sameBuffer (accept c s) (accept c' s')) →
    step s = .next t →
    ∃ t', step s' = .next t' ∧ t'.rsp = t.rsp ∧ t'.accesses = t.accesses ∧
      (c.buf.present = true → ∀ off < c.buf.len, bufferByte t' off = bufferByte t off)

/-- R13: a buffer longer than the port's `buf.len` can say is declared as `2^LENW - 1`, "which loses nothing": for every
width of at least 4 bits the operation answers the same and leaves the same memory. -/
def Obligations.SaturatedLengthLosesNothing : Prop :=
  ∀ (i : Instr) (s t : State) (lenw : Nat), Config.lenwMin ≤ lenw → exec i s = .next t →
    ∃ t', exec i { s with
        cmd := { s.cmd with buf := { s.cmd.buf with len := Config.declaredLength lenw s.cmd.buf.len } } } = .next t' ∧
      t'.rsp = t.rsp ∧ t'.mem = t.mem ∧ t'.accesses = t.accesses

/-- R161 (a), R167: an absent buffer is `InvalidArgument` before any access, on every operation that uses the buffer,
whatever length is declared. -/
def Obligations.AbsentBufferIsInvalidArgument : Prop :=
  ∀ (i : Instr) (s : State), bufferUse i ≠ .ignores → s.cmd.buf.present = false →
    exec i s = .next (answered s ⟨.invalidArgument, 0, 0⟩ [])

/-- R174: the complete matrix of operations and statuses, each with its exact condition; and no operation answers
`IllegalOp`. -/
def Obligations.StatusMatrix : Prop :=
  (Readers fun _ cap op => ∀ b s t r, exec (op b) s = .next t → t.rsp = some r →
    (r.status = .invalidArgument ↔
      s.cmd.buf.present = false ∨ (s.cmd.buf.len < cap ∧ continuesTo s s.cmd.buf.len)) ∧
    (r.status = .truncated ↔ s.cmd.buf.present = true ∧ b = true ∧ cap ≤ s.cmd.buf.len ∧ continuesTo s cap) ∧
    r.status ≠ .unrecognizedKind ∧ r.status ≠ .illegalOp) ∧
  (Writers fun _ _ value op => ∀ b s t r, exec (op b) s = .next t → t.rsp = some r →
    (r.status = .invalidArgument ↔ s.cmd.buf.present = false ∨ s.cmd.buf.len < varintLen (value s.cmd)) ∧
    (r.status = .ok ∨ r.status = .invalidArgument)) ∧
  (∀ b s t r, exec (.kindGet b) s = .next t → t.rsp = some r →
    (r.status = .unrecognizedKind ↔ 4 ≤ (s.cmd.a.extractLsb' 4 4).toNat) ∧
    (r.status = .ok ∨ r.status = .unrecognizedKind)) ∧
  (∀ b s t r, (exec (.kindSet b) s = .next t ∨ exec (.ordinalGet b) s = .next t ∨ exec (.ordinalSet b) s = .next t) →
    t.rsp = some r → r.status = .ok) ∧
  (∀ b s t r, exec (.initDetail b) s = .next t → t.rsp = some r →
    (r.status = .invalidArgument ↔ s.cmd.buf.present = false ∨ s.cmd.buf.len < 4) ∧
    (r.status = .ok ∨ r.status = .invalidArgument))

/-! ## Footprints -/

/-- R37: what the readers and `initialize` read, by outcome, in ascending order once each, and never at or above the declared
length; nothing is written; and the answer depends on no byte outside the footprint. -/
def Obligations.ReadFootprint : Prop :=
  (Readers fun _ cap op => ∀ b s t r, exec (op b) s = .next t → t.rsp = some r →
    let n := match r.status with
      | .ok => r.count.toNat
      | .truncated => cap
      | _ => if s.cmd.buf.present then s.cmd.buf.len else 0
    t.mem = s.mem ∧ t.accesses = s.accesses ++ readsTo n ∧ n ≤ s.cmd.buf.len) ∧
  (∀ b s t r, exec (.initDetail b) s = .next t → t.rsp = some r →
    t.mem = s.mem ∧ t.accesses = s.accesses ++ readsTo (if r.status = .ok then 4 else 0) ∧
      (r.status = .ok → 4 ≤ s.cmd.buf.len)) ∧
  (∀ i s s' t, bufferUse i = .reads → exec i s = .next t → s'.cmd = s.cmd → s'.accesses = s.accesses →
    truthfulFor i s' = true → (∀ off, .read off ∈ t.accesses → bufferByte s' off = bufferByte s off) →
    ∃ t', exec i s' = .next t' ∧ t'.rsp = t.rsp ∧ t'.accesses = t.accesses)

/-- R38: what the writers write: the offsets 0 to `n - 1`, ascending, once each with the byte that is there afterwards, none
of them at or above the declared length; they read nothing; bytes at offsets `n` and above keep their values; on an error
nothing is written. -/
def Obligations.WriteFootprint : Prop :=
  Writers fun _ _ _ op => ∀ b s t r, exec (op b) s = .next t → t.rsp = some r →
    (r.status = .ok →
      r.count.toNat ≤ s.cmd.buf.len ∧
      (∃ bs : List Byte, bs.length = r.count.toNat ∧ beginsWith t bs ∧
        t.accesses = s.accesses ++ bs.zipIdx.map fun x => .write x.2 x.1) ∧
      ∀ off, r.count.toNat ≤ off → bufferByte t off = bufferByte s off) ∧
    (r.status ≠ .ok → t.mem = s.mem ∧ t.accesses = s.accesses)

/-! ## Varint read -/

/-- R84, with R59 for the value: a varint that ends inside the declared length and the cap is answered with its value and its
length, on either value of the strict bit, and no later byte is looked at. -/
def Obligations.ReadersAnswerTerminatedVarint : Prop :=
  Readers fun w cap op => ∀ (b : Bool) (bs : List Byte) (s : State),
    CanRead s → terminated bs = true → bs.length ≤ cap → bs.length ≤ s.cmd.buf.len → beginsWith s bs →
    exec (op b) s = .next (answered s ⟨.ok, (sequenceValue w bs).setWidth 64, BitVec.ofNat 8 bs.length⟩ (readsTo bs.length))

/-- R85, R164: when every byte up to the cap has bit 7 set, the readers stop after the cap: OK with the truncated value
without strict mode, `Truncated` in strict mode. -/
def Obligations.ReadersAtTheCap : Prop :=
  Readers fun w cap op => ∀ (bs : List Byte) (s : State),
    CanRead s → bs.length = cap → (∀ b ∈ bs, continues b = true) → cap ≤ s.cmd.buf.len → beginsWith s bs →
    exec (op false) s = .next (answered s ⟨.ok, (sequenceValue w bs).setWidth 64, BitVec.ofNat 8 cap⟩ (readsTo cap)) ∧
      exec (op true) s = .next (answered s ⟨.truncated, 0, 0⟩ (readsTo cap))

/-- R87 (b): a varint that has not ended inside a declared length below the cap is `InvalidArgument`. -/
def Obligations.ReadersOnShortBuffer : Prop :=
  Readers fun _ cap op => ∀ (b : Bool) (s : State),
    CanRead s → s.cmd.buf.len < cap → continuesTo s s.cmd.buf.len →
    exec (op b) s = .next (answered s ⟨.invalidArgument, 0, 0⟩ (readsTo s.cmd.buf.len))

/-- R82: of the last possible byte only the chunk bits that fit count. At 32 bits, chunk bits [3:0] of byte 4 are value bits
[31:28] and its bits [6:4] change nothing; at 64 bits, chunk bit [0] of byte 9 is value bit [63] and its bits [6:1] change
nothing. -/
def Obligations.BitsAboveTheAccumulatorAreDropped : Prop :=
  Readers fun w cap op => ∀ (b : Bool) (front : List Byte) (x y : Byte) (s s' t : State) (r : Response),
    front.length = cap - 1 → (∀ z ∈ front, continues z = true) →
    CanRead s → CanRead s' → s'.cmd = s.cmd → cap ≤ s.cmd.buf.len →
    beginsWith s (front ++ [x]) → beginsWith s' (front ++ [y]) →
    continues x = continues y → (∀ j < w - 7 * (cap - 1), x.getLsbD j = y.getLsbD j) →
    exec (op b) s = .next t → t.rsp = some r →
    responseOf (exec (op b) s') = some r ∧
      (r.status = .ok → ∀ j < w - 7 * (cap - 1), r.r.getLsbD (7 * (cap - 1) + j) = x.getLsbD j)

/-- R88: padding a varint with zero chunks decodes to the same value with the longer count. -/
def Obligations.NonCanonicalInputIsAccepted : Prop :=
  Readers fun _ cap op => ∀ (b : Bool) (front : List Byte) (last : Byte) (pad : Nat) (s s' t : State) (r : Response),
    (∀ z ∈ front, continues z = true) → continues last = false → front.length + pad + 2 ≤ cap →
    CanRead s → CanRead s' → front.length + 1 ≤ s.cmd.buf.len → front.length + pad + 2 ≤ s'.cmd.buf.len →
    beginsWith s (front ++ [last]) → beginsWith s' (front ++ [last ||| 0x80#8] ++ List.replicate pad 0x80#8 ++ [0x00#8]) →
    exec (op b) s = .next t → t.rsp = some r →
    responseOf (exec (op b) s') = some ⟨.ok, r.r, BitVec.ofNat 8 (r.count.toNat + pad + 1)⟩

/-- R90: unsigned values come back, on either strict bit, for both widths. -/
def Obligations.UnsignedRoundTrip : Prop :=
  RoundTrip (fun c => (c.a.extractLsb' 0 32).setWidth 64) .writeVarintU32 .readVarintU32 ∧
    RoundTrip (fun c => c.a) .writeVarintU64 .readVarintU64

/-! ## Varint write -/

/-- R103: a writer whose buffer is long enough ends OK and leaves `{c_i, v[7i+6:7i]}` at each offset `i` below `len(v)`. -/
def Obligations.WritersStoreTheEncoding : Prop :=
  Writers fun _ _ value op => ∀ (b : Bool) (s : State),
    CanWrite s → varintLen (value s.cmd) ≤ s.cmd.buf.len → ∃ t, exec (op b) s = .next t ∧ Wrote s t (value s.cmd)

/-- R105: an absent buffer, or one shorter than the bytes needed, is `InvalidArgument`, and no byte of memory changes; the
check is against the bytes needed, so 0 fits in a buffer of one byte; a buffer as long as the cap is never too short. -/
def Obligations.WritersCheckLengthFirst : Prop :=
  Writers fun _ cap value op => ∀ (b : Bool) (s : State),
    (s.cmd.buf.present = false → exec (op b) s = .next (answered s ⟨.invalidArgument, 0, 0⟩ [])) ∧
    (CanWrite s → s.cmd.buf.len < varintLen (value s.cmd) →
      exec (op b) s = .next (answered s ⟨.invalidArgument, 0, 0⟩ [])) ∧
    (CanWrite s → s.cmd.buf.len = 1 → value s.cmd = 0 →
      ∃ t, exec (op b) s = .next t ∧ t.rsp = some ⟨.ok, 0, 1⟩ ∧ bufferByte t 0 = some 0x00#8) ∧
    (CanWrite s → cap ≤ s.cmd.buf.len → ∃ t r, exec (op b) s = .next t ∧ t.rsp = some r ∧ r.status = .ok)

/-- R104: no write stops at the cap with bits left, none is `Truncated`, and the last byte written has bit 7 clear. -/
def Obligations.WriteCapIsNeverReached : Prop :=
  Writers fun _ _ _ op => ∀ (b : Bool) (s : State),
    exec (op b) s ≠ .refused .writeCapBitsLeft ∧
      ∀ t r, exec (op b) s = .next t → t.rsp = some r → r.status ≠ .truncated ∧
        (r.status = .ok → ∃ last, bufferByte t (r.count.toNat - 1) = some last ∧ continues last = false)

/-- R61: the count of a write is `k` exactly for the values 2^(7(k-1)) to 2^(7k) - 1, and 1 for 0 as well. -/
def Obligations.WriteCountThresholds : Prop :=
  Writers fun _ _ value op => ∀ (b : Bool) (s t : State) (r : Response),
    exec (op b) s = .next t → t.rsp = some r → r.status = .ok →
    1 ≤ r.count.toNat ∧ (value s.cmd).toNat < 2 ^ (7 * r.count.toNat) ∧
      (1 < r.count.toNat → 2 ^ (7 * (r.count.toNat - 1)) ≤ (value s.cmd).toNat)

/-- R107: the bytes that a write leaves are a varint (bit 7 set on all but the last) whose value is `v`; the last byte is
non-zero unless `v` is 0, then the output is the single byte 0; and no shorter varint has the value `v`. -/
def Obligations.WritersOutputIsShortest : Prop :=
  Writers fun w _ value op => ∀ (b : Bool) (s t : State) (r : Response),
    exec (op b) s = .next t → t.rsp = some r → r.status = .ok →
    ∃ bs : List Byte, bs.length = r.count.toNat ∧ beginsWith t bs ∧ terminated bs = true ∧
      sequenceValue w bs = value s.cmd ∧ (value s.cmd = 0 → bs = [0x00#8]) ∧
      (value s.cmd ≠ 0 → bs.getLast? ≠ some 0x00#8) ∧
      ∀ bs' : List Byte, terminated bs' = true → sequenceValue w bs' = value s.cmd → bs.length ≤ bs'.length

/-- R106: on values below 2^32 the two writers do the same, errors and refusals included. -/
def Obligations.WritersAgreeBelow2Pow32 : Prop :=
  ∀ (s : State) (b b' : Bool), s.cmd.a.toNat < 2 ^ 32 →
    exec (.writeVarintU64 b) s = exec (.writeVarintU32 b') s

/-! ## The signed adapter -/

/-- R121, R123: the signed readers answer the unsigned readers' response, field for field. -/
def Obligations.SignedReadersAreUnsignedReaders : Prop :=
  ∀ (s : State) (b : Bool), exec (.readVarintI32 b) s = exec (.readVarintU32 b) s ∧
    exec (.readVarintI64 b) s = exec (.readVarintU64 b) s

/-- R122, R124: the signed writers do what the unsigned writers do on the same bits. -/
def Obligations.SignedWritersAreUnsignedWriters : Prop :=
  ∀ (s : State) (b : Bool), exec (.writeVarintI32 b) s = exec (.writeVarintU32 b) s ∧
    exec (.writeVarintI64 b) s = exec (.writeVarintU64 b) s

/-- R125: every pattern with its top bit set takes the full width, 5 bytes for an `i32` and 10 for an `i64`; a shorter buffer
is an error. -/
def Obligations.NegativeValuesTakeFullWidth : Prop :=
  ∀ (s : State) (b : Bool), CanWrite s →
    (s.cmd.a.getLsbD 31 = true →
      (5 ≤ s.cmd.buf.len → ∃ t, exec (.writeVarintI32 b) s = .next t ∧ t.rsp = some ⟨.ok, 0, 5⟩) ∧
      (s.cmd.buf.len < 5 → exec (.writeVarintI32 b) s = .next (answered s ⟨.invalidArgument, 0, 0⟩ []))) ∧
    (s.cmd.a.getLsbD 63 = true →
      (10 ≤ s.cmd.buf.len → ∃ t, exec (.writeVarintI64 b) s = .next t ∧ t.rsp = some ⟨.ok, 0, 10⟩) ∧
      (s.cmd.buf.len < 10 → exec (.writeVarintI64 b) s = .next (answered s ⟨.invalidArgument, 0, 0⟩ [])))

/-- R126: a 32-bit signed value is never widened: `read_varint_i32` leaves `rsp.r[63:32]` 0, also when bit 31 is set, and
`write_varint_i32` does the same whatever `cmd.a[63:32]` holds. -/
def Obligations.Signed32IsNeverWidened : Prop :=
  (∀ (s t : State) (b : Bool) (r : Response), exec (.readVarintI32 b) s = .next t → t.rsp = some r →
    r.r.extractLsb' 32 32 = 0) ∧
  (∀ (s t : State) (b : Bool) (a : Word64), a.extractLsb' 0 32 = s.cmd.a.extractLsb' 0 32 →
    exec (.writeVarintI32 b) s = .next t →
    exec (.writeVarintI32 b) (withOperands s a s.cmd.b) = .next (withOperands t a s.cmd.b))

/-- R127: signed patterns come back bit for bit, and the signed and unsigned operations of one width interoperate. -/
def Obligations.SignedRoundTrip : Prop :=
  RoundTrip (fun c => (c.a.extractLsb' 0 32).setWidth 64) .writeVarintI32 .readVarintI32 ∧
    RoundTrip (fun c => c.a) .writeVarintI64 .readVarintI64 ∧
    RoundTrip (fun c => (c.a.extractLsb' 0 32).setWidth 64) .writeVarintI32 .readVarintU32 ∧
    RoundTrip (fun c => (c.a.extractLsb' 0 32).setWidth 64) .writeVarintU32 .readVarintI32 ∧
    RoundTrip (fun c => c.a) .writeVarintI64 .readVarintU64 ∧
    RoundTrip (fun c => c.a) .writeVarintU64 .readVarintI64

/-! ## The type-detail header -/

/-- R133: `kind_get` answers the kind field, OK on 0 to 3 and `UnrecognizedKind` on 4 to 15, and accesses nothing. -/
def Obligations.KindGetReportsEveryKind : Prop :=
  ∀ (s : State) (b : Bool),
    exec (.kindGet b) s = .next (answered s
      ⟨if (s.cmd.a.extractLsb' 4 4).toNat ≤ 3 then .ok else .unrecognizedKind, (s.cmd.a.extractLsb' 4 4).setWidth 64, 0⟩ [])

/-- R134: `kind_set` answers `{detail[31:8], k, detail[3:0]}` for every 4-bit kind and never fails. -/
def Obligations.KindSetInsertsKind : Prop :=
  ∀ (s : State) (b : Bool),
    exec (.kindSet b) s = .next (answered s
      ⟨.ok, (s.cmd.a.extractLsb' 8 24 ++ s.cmd.b.extractLsb' 0 4 ++ s.cmd.a.extractLsb' 0 4 : BitVec 32).setWidth 64, 0⟩ [])

/-- R136: `ordinal_get` answers bits [31:8], whatever the kind, and accesses nothing. -/
def Obligations.OrdinalGetExtractsOrdinal : Prop :=
  ∀ (s : State) (b : Bool),
    exec (.ordinalGet b) s = .next (answered s ⟨.ok, (s.cmd.a.extractLsb' 8 24).setWidth 64, 0⟩ [])

/-- R137: `ordinal_set` answers `{o, detail[7:0]}`, the operand masked to 24 bits, and never fails. -/
def Obligations.OrdinalSetInsertsOrdinal : Prop :=
  ∀ (s : State) (b : Bool),
    exec (.ordinalSet b) s = .next (answered s
      ⟨.ok, (s.cmd.b.extractLsb' 0 24 ++ s.cmd.a.extractLsb' 0 8 : BitVec 32).setWidth 64, 0⟩ [])

/-- R131: the two fields are independent: setting one leaves the other and the reserved bits, the last setting of a field
counts, and the two setters commute. -/
def Obligations.FieldsAreIndependent : Prop :=
  ∀ (s : State) (b : Bool) (d : Word64) (k k' o o' : Word32) (rk ro rk' ro' : Response),
    responseOf (exec (.kindSet b) (withOperands s d k)) = some rk →
    responseOf (exec (.ordinalSet b) (withOperands s d o)) = some ro →
    responseOf (exec (.kindSet b) (withOperands s d k')) = some rk' →
    responseOf (exec (.ordinalSet b) (withOperands s d o')) = some ro' →
    responseOf (exec (.ordinalGet b) (withOperands s rk.r 0)) = responseOf (exec (.ordinalGet b) (withOperands s d 0)) ∧
    responseOf (exec (.kindGet b) (withOperands s ro.r 0)) = responseOf (exec (.kindGet b) (withOperands s d 0)) ∧
    rk.r.extractLsb' 0 4 = d.extractLsb' 0 4 ∧ ro.r.extractLsb' 0 4 = d.extractLsb' 0 4 ∧
    responseOf (exec (.kindSet b) (withOperands s rk'.r k)) = some rk ∧
    responseOf (exec (.ordinalSet b) (withOperands s ro'.r o)) = some ro ∧
    responseOf (exec (.kindSet b) (withOperands s ro.r k)) = responseOf (exec (.ordinalSet b) (withOperands s rk.r o))

/-- R141: from every starting value, after `kind_set` and `ordinal_set` in either order `kind_get` answers the kind (with
`UnrecognizedKind` on 4 to 15) and `ordinal_get` the ordinal operand's low 24 bits. -/
def Obligations.HeaderRoundTrip : Prop :=
  ∀ (s : State) (b : Bool) (d : Word64) (k o : Word32) (r1 r2 : Response), k.toNat < 16 →
    ((responseOf (exec (.kindSet b) (withOperands s d k)) = some r1 ∧
        responseOf (exec (.ordinalSet b) (withOperands s r1.r o)) = some r2) ∨
      (responseOf (exec (.ordinalSet b) (withOperands s d o)) = some r1 ∧
        responseOf (exec (.kindSet b) (withOperands s r1.r k)) = some r2)) →
    responseOf (exec (.kindGet b) (withOperands s r2.r 0)) =
        some ⟨if k.toNat ≤ 3 then .ok else .unrecognizedKind, k.setWidth 64, 0⟩ ∧
      responseOf (exec (.ordinalGet b) (withOperands s r2.r 0)) = some ⟨.ok, (o.extractLsb' 0 24).setWidth 64, 0⟩

/-- R138, R139: `initialize` answers the first four bytes, little-endian and unvalidated, with count 4, and reads offsets 0 to 3
in order; an absent buffer or fewer than four bytes is `InvalidArgument` and no byte is read. -/
def Obligations.InitializeCopiesFourBytes : Prop :=
  ∀ (s : State) (b : Bool),
    (∀ b0 b1 b2 b3 : Byte, CanRead s → 4 ≤ s.cmd.buf.len → beginsWith s [b0, b1, b2, b3] →
      exec (.initDetail b) s = .next (answered s ⟨.ok, (b3 ++ b2 ++ b1 ++ b0 : BitVec 32).setWidth 64, 4⟩
        [.read 0, .read 1, .read 2, .read 3])) ∧
    (s.cmd.buf.present = false → exec (.initDetail b) s = .next (answered s ⟨.invalidArgument, 0, 0⟩ [])) ∧
    (CanRead s → s.cmd.buf.len < 4 → exec (.initDetail b) s = .next (answered s ⟨.invalidArgument, 0, 0⟩ []))

/-! ## Memory as the host and other agents write it -/

/-- R40, R44: a byte that the host writes between commands reads as what was written, and nothing else changes: no other
address, no permission, no field of the block. An address that held no byte of the caller's holds one afterwards (log
entry 2). -/
def Obligations.HostWriteSetsOneByte : Prop :=
  ∀ (s : State) (addr : Nat) (v : Byte) (rest : List HostAct), s.pending = .hostWrite addr v :: rest →
    ∃ t, step s = .next t ∧ t = { s with pending := rest, mem := t.mem } ∧ Memory.byteAt t.mem addr = some v ∧
      ∀ a, a ≠ addr → Memory.byteAt t.mem a = Memory.byteAt s.mem a

/-- R40: what another agent writes beside a command reads as its last write to the address, whether the command is accepted
or not; an address that it does not write is as before, but for the buffer of an accepted write command; and its accesses
change nothing but memory. The list of another agent's accesses is the model's form, log entries 12 and 16. -/
def Obligations.OtherAgentsWritesLand : Prop :=
  ∀ (s u : State) (c : Command) (others : List Touch) (rest : List HostAct),
    s.pending = .issueBeside c others :: rest → step s = .next u →
    (∀ front addr v back, others = front ++ .write addr v :: back → (∀ v', .write addr v' ∉ back) →
      Memory.byteAt u.mem addr = some v) ∧
    (∀ addr, (∀ v, .write addr v ∉ others) →
      (s.rst = true ∨ commandUse c ≠ .writes ∨ inBuffer c addr = false) →
      Memory.byteAt u.mem addr = Memory.byteAt s.mem addr) ∧
    u = { s with pending := rest, mem := u.mem, cmd := u.cmd, rsp := u.rsp, accesses := u.accesses } ∧
    (s.rst = true → u.cmd = s.cmd ∧ u.rsp = s.rsp ∧ u.accesses = s.accesses)
end

