-- ==== Sys2Proof/Laws/State.lean ====
section
/-! SUPPORT. One lemma per field per update of the state, so that no later proof unfolds a record update. -/

namespace Sys2Proof.Machine

/-- The state with more accesses at the buffer port: the one thing a read changes. -/
abbrev State.withAccesses (s : State) (as : List Access) : State := { s with accesses := s.accesses ++ as }

section respond
variable (st : Status) (r : Word64) (n : Nat) (s : State)

@[simp] theorem respond_mem : (respond st r n s).mem = s.mem := rfl
@[simp] theorem respond_unreadable : (respond st r n s).unreadable = s.unreadable := rfl
@[simp] theorem respond_unwritable : (respond st r n s).unwritable = s.unwritable := rfl
@[simp] theorem respond_pending : (respond st r n s).pending = s.pending := rfl
@[simp] theorem respond_rst : (respond st r n s).rst = s.rst := rfl
@[simp] theorem respond_cmd : (respond st r n s).cmd = s.cmd := rfl
@[simp] theorem respond_rsp : (respond st r n s).rsp = some ⟨st, r, BitVec.ofNat 8 n⟩ := rfl
@[simp] theorem respond_accesses : (respond st r n s).accesses = s.accesses := rfl
@[simp] theorem respond_freeCount : (respond st r n s).freeCount = s.freeCount := rfl
end respond

section accept
variable (c : Command) (s : State)

@[simp] theorem accept_mem : (accept c s).mem = s.mem := rfl
@[simp] theorem accept_unreadable : (accept c s).unreadable = s.unreadable := rfl
@[simp] theorem accept_unwritable : (accept c s).unwritable = s.unwritable := rfl
@[simp] theorem accept_pending : (accept c s).pending = s.pending := rfl
@[simp] theorem accept_rst : (accept c s).rst = s.rst := rfl
@[simp] theorem accept_cmd : (accept c s).cmd = c := rfl
@[simp] theorem accept_rsp : (accept c s).rsp = none := rfl
@[simp] theorem accept_accesses : (accept c s).accesses = [] := rfl
@[simp] theorem accept_freeCount : (accept c s).freeCount = s.freeCount := rfl
end accept

section enterReset
variable (s : State)

@[simp] theorem enterReset_mem : (enterReset s).mem = s.mem := rfl
@[simp] theorem enterReset_unreadable : (enterReset s).unreadable = s.unreadable := rfl
@[simp] theorem enterReset_unwritable : (enterReset s).unwritable = s.unwritable := rfl
@[simp] theorem enterReset_pending : (enterReset s).pending = s.pending := rfl
@[simp] theorem enterReset_rst : (enterReset s).rst = true := rfl
@[simp] theorem enterReset_cmd : (enterReset s).cmd = s.cmd := rfl
@[simp] theorem enterReset_rsp : (enterReset s).rsp = none := rfl
@[simp] theorem enterReset_accesses : (enterReset s).accesses = [] := rfl
@[simp] theorem enterReset_freeCount : (enterReset s).freeCount = s.freeCount := rfl
end enterReset

section hostStore
variable (a : Nat) (v : Byte) (s : State)

@[simp] theorem hostStore_mem : (hostStore a v s).mem = Memory.store s.mem a v := rfl
@[simp] theorem hostStore_unreadable : (hostStore a v s).unreadable = s.unreadable := rfl
@[simp] theorem hostStore_unwritable : (hostStore a v s).unwritable = s.unwritable := rfl
@[simp] theorem hostStore_pending : (hostStore a v s).pending = s.pending := rfl
@[simp] theorem hostStore_rst : (hostStore a v s).rst = s.rst := rfl
@[simp] theorem hostStore_cmd : (hostStore a v s).cmd = s.cmd := rfl
@[simp] theorem hostStore_rsp : (hostStore a v s).rsp = s.rsp := rfl
@[simp] theorem hostStore_accesses : (hostStore a v s).accesses = s.accesses := rfl
@[simp] theorem hostStore_freeCount : (hostStore a v s).freeCount = s.freeCount := rfl
end hostStore

section offerWord
variable (w : Byte) (s : State)

@[simp] theorem offerWord_mem : (offerWord w s).mem = s.mem := rfl
@[simp] theorem offerWord_rst : (offerWord w s).rst = false := rfl
@[simp] theorem offerWord_cmd : (offerWord w s).cmd = s.cmd := rfl
@[simp] theorem offerWord_rsp : (offerWord w s).rsp = s.rsp := rfl
@[simp] theorem offerWord_pending :
    (offerWord w s).pending = .issue { s.cmd with word := w } :: s.pending := rfl
end offerWord

/-- A response that answers OK is never an error response, and the other way round. -/
@[simp] theorem returnOk_eq (r : Word64) (n : Nat) (s : State) : returnOk r n s = .next (respond .ok r n s) := rfl

@[simp] theorem raise_eq (e : Status) (info : Word64) (s : State) : raise e info s = .next (respond e info 0 s) := rfl

theorem bufferAddr_eq (c : Command) (off : Nat) : bufferAddr c off = c.buf.base + off := rfl

end Sys2Proof.Machine
end

