-- ==== Sys2Proof/Laws/Memory.lean ====
section
/-! SUPPORT. The laws of the host's memory: read after write, every other address left alone, the canonical form kept. -/

namespace Sys2Proof.Machine

theorem Memory.byteAt_store_same (m : List Host.Cell) (a : Nat) (v : Byte) :
    Memory.byteAt (Memory.store m a v) a = some v := by
  induction m with
  | nil => simp [Memory.store, Memory.byteAt]
  | cons c m ih =>
    obtain ⟨b, w⟩ := c
    by_cases h1 : a < b
    · simp [Memory.store, Memory.byteAt, h1]
    · by_cases h2 : b = a
      · simp [Memory.store, Memory.byteAt, h2]
      · simp [Memory.store, Memory.byteAt, h1, h2, ih]

theorem Memory.byteAt_store_other (m : List Host.Cell) {a b : Nat} (v : Byte) (h : b ≠ a) :
    Memory.byteAt (Memory.store m a v) b = Memory.byteAt m b := by
  induction m with
  | nil => simp [Memory.store, Memory.byteAt, h.symm]
  | cons c m ih =>
    obtain ⟨d, w⟩ := c
    by_cases h1 : a < d
    · simp [Memory.store, Memory.byteAt, h1, h.symm]
    · by_cases h2 : d = a
      · subst h2; simp [Memory.store, Memory.byteAt, h.symm]
      · simp [Memory.store, Memory.byteAt, h1, h2, ih]

/-- The byte at an address after a write: the one law both others follow from. -/
theorem Memory.byteAt_store (m : List Host.Cell) (a b : Nat) (v : Byte) :
    Memory.byteAt (Memory.store m a v) b = if b = a then some v else Memory.byteAt m b := by
  by_cases h : b = a
  · simp [h, Memory.byteAt_store_same]
  · simp [h, Memory.byteAt_store_other _ _ h]

theorem Memory.isSome_store {m : List Host.Cell} {a b : Nat} {v : Byte} (h : (Memory.byteAt m a).isSome) :
    (Memory.byteAt (Memory.store m a v) b).isSome = (Memory.byteAt m b).isSome := by
  rw [Memory.byteAt_store]
  by_cases hb : b = a
  · subst hb; simp [h]
  · simp [hb]

theorem Memory.risesAbove_store {m : List Host.Cell} {lo a : Nat} (v : Byte)
    (h : Memory.risesAbove lo m = true) (hlo : lo < a) : Memory.risesAbove lo (Memory.store m a v) = true := by
  induction m generalizing lo with
  | nil => simpa [Memory.store, Memory.risesAbove] using hlo
  | cons c m ih =>
    obtain ⟨b, w⟩ := c
    simp only [Memory.risesAbove, Bool.and_eq_true, decide_eq_true_eq] at h
    by_cases h1 : a < b
    · simp [Memory.store, Memory.risesAbove, h1, h.2, hlo]
    · by_cases h2 : b = a
      · subst h2; simp [Memory.store, Memory.risesAbove, h.1, h.2]
      · simpa [Memory.store, Memory.risesAbove, h1, h2, h.1] using ih h.2 (by omega)

/-- Every write keeps the canonical form. -/
theorem Memory.wf_store {m : List Host.Cell} (h : Memory.wf m = true) (a : Nat) (v : Byte) :
    Memory.wf (Memory.store m a v) = true := by
  cases m with
  | nil => simp [Memory.store, Memory.wf, Memory.risesAbove]
  | cons c m =>
    obtain ⟨b, w⟩ := c
    simp only [Memory.wf] at h
    by_cases h1 : a < b
    · simp [Memory.store, Memory.wf, Memory.risesAbove, h1, h]
    · by_cases h2 : b = a
      · subst h2; simpa [Memory.store, Memory.wf] using h
      · simpa [Memory.store, Memory.wf, h1, h2] using Memory.risesAbove_store v h (by omega)

/-- No address at or below the bound of a rising list is listed. -/
theorem Memory.byteAt_of_risesAbove {m : List Host.Cell} {lo a : Nat} (h : Memory.risesAbove lo m = true)
    (ha : a ≤ lo) : Memory.byteAt m a = none := by
  induction m generalizing lo with
  | nil => rfl
  | cons c m ih =>
    obtain ⟨b, w⟩ := c
    simp only [Memory.risesAbove, Bool.and_eq_true, decide_eq_true_eq] at h
    have hne : b ≠ a := by omega
    simp only [Memory.byteAt, hne, if_false]
    exact ih h.2 (by omega)

theorem Memory.wf_of_risesAbove {m : List Host.Cell} {lo : Nat} (h : Memory.risesAbove lo m = true) :
    Memory.wf m = true := by
  cases m with
  | nil => rfl
  | cons c m => simp only [Memory.risesAbove, Bool.and_eq_true] at h; exact h.2

/-- The lowest listed address is the head's. -/
theorem Memory.byteAt_below_head {m : List Host.Cell} {b a : Nat} {w : Byte} (h : Memory.risesAbove b m = true)
    (ha : a < b) : Memory.byteAt ((b, w) :: m) a = none := by
  rw [Memory.byteAt, if_neg (by omega), Memory.byteAt_of_risesAbove h (by omega)]

/-- Equal memories are equal lists: the canonical form is canonical. -/
theorem Memory.ext_of_wf {m m' : List Host.Cell} (h : Memory.wf m = true) (h' : Memory.wf m' = true)
    (heq : ∀ a, Memory.byteAt m a = Memory.byteAt m' a) : m = m' := by
  induction m generalizing m' with
  | nil =>
    cases m' with
    | nil => rfl
    | cons c m' => obtain ⟨b, w⟩ := c; simpa [Memory.byteAt] using heq b
  | cons c m ih =>
    obtain ⟨b, w⟩ := c
    cases m' with
    | nil => simpa [Memory.byteAt] using heq b
    | cons c' m' =>
      obtain ⟨b', w'⟩ := c'
      simp only [Memory.wf] at h h'
      have hb := heq b
      have hb' := (heq b').symm
      rw [Memory.byteAt, if_pos rfl] at hb hb'
      obtain rfl : b = b' := by
        rcases Nat.lt_trichotomy b b' with hlt | he | hlt
        · rw [Memory.byteAt_below_head h' hlt] at hb; simp at hb
        · exact he
        · rw [Memory.byteAt_below_head h hlt] at hb'; simp at hb'
      obtain rfl : w = w' := by simpa [Memory.byteAt] using hb
      refine congrArg _ (ih (Memory.wf_of_risesAbove h) (Memory.wf_of_risesAbove h') fun a => ?_)
      by_cases ha : b = a
      · subst ha
        rw [Memory.byteAt_of_risesAbove h (Nat.le_refl _), Memory.byteAt_of_risesAbove h' (Nat.le_refl _)]
      · simpa [Memory.byteAt, ha] using heq a

/-! ## The buffer port -/

theorem truthfulRead_iff {s : State} : truthfulRead s = true ↔ ∀ off < s.cmd.buf.len, readableAt s off = true := by
  simp [truthfulRead, List.all_eq_true]

theorem truthfulWrite_iff {s : State} : truthfulWrite s = true ↔ ∀ off < s.cmd.buf.len, writableAt s off = true := by
  simp [truthfulWrite, List.all_eq_true]

/-- Everything a byte read can do. -/
theorem memRead_some {s s' : State} {off : Nat} {b : Byte} (h : memRead off s = some (b, s')) :
    readableAt s off = true ∧ bufferByte s off = some b ∧ s' = s.withAccesses [.read off] := by
  unfold memRead at h
  split at h
  next hr =>
    simp only [Option.map_eq_some_iff, Prod.mk.injEq] at h
    obtain ⟨v, hv, rfl, rfl⟩ := h
    exact ⟨hr, hv, rfl⟩
  next => exact absurd h (by simp)

/-- A byte read of a readable byte completes. -/
theorem memRead_of_readable {s : State} {off : Nat} {b : Byte} (h : readableAt s off = true)
    (hb : bufferByte s off = some b) : memRead off s = some (b, s.withAccesses [.read off]) := by
  unfold bufferByte at hb
  simp [memRead, h, hb]

theorem bufferByte_of_readable {s : State} {off : Nat} (h : readableAt s off = true) :
    ∃ b, bufferByte s off = some b := by
  unfold readableAt at h
  simp only [Bool.and_eq_true] at h
  exact Option.isSome_iff_exists.1 h.1

/-- Everything a byte write can do. -/
theorem memWrite_some {s s' : State} {off : Nat} {v : Byte} (h : memWrite off v s = some s') :
    writableAt s off = true ∧
      s' = { s with mem := Memory.store s.mem (bufferAddr s.cmd off) v, accesses := s.accesses ++ [.write off v] } := by
  unfold memWrite at h
  split at h
  next hw => exact ⟨hw, by simpa using h.symm⟩
  next => exact absurd h (by simp)

theorem memWrite_of_writable {s : State} {off : Nat} (v : Byte) (h : writableAt s off = true) :
    memWrite off v s =
      some { s with mem := Memory.store s.mem (bufferAddr s.cmd off) v, accesses := s.accesses ++ [.write off v] } := by
  simp [memWrite, h]

/-- A byte write changes no permission and makes no byte the caller's that was not. -/
theorem writableAt_after_write {s s' : State} {off k : Nat} {v : Byte} (h : memWrite off v s = some s') :
    writableAt s' k = writableAt s k := by
  obtain ⟨hw, rfl⟩ := memWrite_some h
  have : (Memory.byteAt s.mem (bufferAddr s.cmd off)).isSome := by
    unfold writableAt at hw; simp only [Bool.and_eq_true] at hw; exact hw.1
  simp [writableAt, Memory.isSome_store (by simpa using this)]

end Sys2Proof.Machine
end

