-- ==== Sys2Proof/Laws/Varint.lean ====
section
/-! SUPPORT. The varint data format (spec/30_encoding.md R58 to R61): the length of an encoding, its bytes, and the value
of a sequence, each with the one recurrence that the loops of the meanings follow. -/

namespace Sys2Proof.Machine

/-! ## The length of an encoding -/

theorem highestSet_le {w : Nat} (v : BitVec w) (n : Nat) : highestSet v n ≤ n := by
  induction n with
  | zero => simp [highestSet]
  | succ n ih => simp only [highestSet]; split <;> omega

theorem highestSet_le_iff {w : Nat} (v : BitVec w) (n k : Nat) :
    highestSet v n ≤ k ↔ ∀ j, k ≤ j → j < n → v.getLsbD j = false := by
  induction n with
  | zero => simp [highestSet]
  | succ n ih =>
    simp only [highestSet]
    by_cases h : v.getLsbD n = true
    · rw [if_pos h]
      constructor
      · intro hk j hj hjn; omega
      · intro hall
        by_contra hc
        rw [hall n (by omega) (by omega)] at h
        exact absurd h (by simp)
    · rw [if_neg h, ih]
      constructor
      · intro hall j hj hjn
        by_cases hjn' : j = n
        · subst hjn'; simpa using h
        · exact hall j hj (by omega)
      · exact fun hall j hj hjn => hall j hj (by omega)

/-- `bitlen(v)` is the least `k` with `v < 2^k` (R61). -/
theorem bitLen_le_iff {w : Nat} (v : BitVec w) (k : Nat) : bitLen v ≤ k ↔ v.toNat < 2 ^ k := by
  unfold bitLen
  rw [highestSet_le_iff]
  constructor
  · intro h
    apply Nat.lt_pow_two_of_testBit
    intro j hj
    by_cases hjw : j < w
    · simpa [BitVec.getLsbD] using h j hj hjw
    · exact Nat.testBit_lt_two_pow (Nat.lt_of_lt_of_le v.isLt (Nat.pow_le_pow_right (by omega) (by omega)))
  · intro h j hj _
    exact Nat.testBit_lt_two_pow (Nat.lt_of_lt_of_le h (Nat.pow_le_pow_right (by omega) hj))

theorem varintLen_pos {w : Nat} (v : BitVec w) : 1 ≤ varintLen v := by
  unfold varintLen
  split
  next => exact Nat.le_refl 1
  next h =>
    have : ¬ bitLen v ≤ 0 := by
      rw [bitLen_le_iff]
      intro hc
      exact h (BitVec.eq_of_toNat_eq (by simpa using hc))
    omega

/-- At most `k` bytes are needed exactly when the value is below `2^(7k)` (R61). -/
theorem varintLen_le_iff {w : Nat} (v : BitVec w) {k : Nat} (hk : 1 ≤ k) :
    varintLen v ≤ k ↔ v.toNat < 2 ^ (7 * k) := by
  unfold varintLen
  split
  next h => subst h; simp [hk]
  next h =>
    rw [← bitLen_le_iff]
    omega

/-- One chunk less, one byte less (R100). -/
theorem varintLen_shift {w : Nat} (v : BitVec w) (h : v >>> 7 ≠ 0) : varintLen (v >>> 7) + 1 = varintLen v := by
  have hk : ∀ k, 1 ≤ k → (varintLen (v >>> 7) ≤ k ↔ varintLen v ≤ k + 1) := by
    intro k hk
    rw [varintLen_le_iff _ hk, varintLen_le_iff _ (by omega), BitVec.toNat_ushiftRight, Nat.shiftRight_eq_div_pow,
      Nat.div_lt_iff_lt_mul (by norm_num), ← Nat.pow_add]
    rw [show 7 * k + 7 = 7 * (k + 1) by ring]
  have h1 : ¬ varintLen v ≤ 1 := by
    rw [varintLen_le_iff _ (Nat.le_refl 1)]
    intro hc
    apply h
    apply BitVec.eq_of_toNat_eq
    simp only [BitVec.toNat_ushiftRight, Nat.shiftRight_eq_div_pow]
    exact Nat.div_eq_of_lt (by simpa using hc)
  have hp := varintLen_pos (v >>> 7)
  have ha := (hk (varintLen (v >>> 7)) hp).1 (Nat.le_refl _)
  have hb := (hk (varintLen v - 1) (by omega)).2 (by omega)
  omega

theorem varintLen_of_shift_zero {w : Nat} (v : BitVec w) (h : v >>> 7 = 0) : varintLen v = 1 := by
  have : varintLen v ≤ 1 := by
    rw [varintLen_le_iff _ (Nat.le_refl 1)]
    have h2 := congrArg BitVec.toNat h
    simp only [BitVec.toNat_ushiftRight, Nat.shiftRight_eq_div_pow] at h2
    rcases Nat.div_eq_zero_iff.1 h2 with h3 | h3
    · norm_num at h3
    · simpa using h3
  have := varintLen_pos v
  omega

/-- The cap suffices: `7 * CAP ≥ W` (R104). -/
theorem varintLen_le_cap {w cap : Nat} (v : BitVec w) (h : w ≤ 7 * cap) (hc : 1 ≤ cap) : varintLen v ≤ cap :=
  (varintLen_le_iff v hc).2 (Nat.lt_of_lt_of_le v.isLt (Nat.pow_le_pow_right (by omega) h))

/-! ## The bytes of an encoding -/

@[simp] theorem chunkOf_varintByte (f : Bool) (c : BitVec 7) : chunkOf (varintByte f c) = c := by
  refine BitVec.eq_of_getLsbD_eq fun i hi => ?_
  rw [chunkOf, BitVec.getLsbD_extractLsb']
  change (decide (i < 7) && BitVec.getLsbD (BitVec.ofBool f ++ c) (0 + i)) = c.getLsbD i
  rw [BitVec.getLsbD_append]
  simp [hi]

@[simp] theorem continues_varintByte (f : Bool) (c : BitVec 7) : continues (varintByte f c) = f := by
  change BitVec.getLsbD (BitVec.ofBool f ++ c) 7 = f
  rw [BitVec.getLsbD_append]
  simp

theorem encodedByte_zero {w : Nat} (v : BitVec w) :
    encodedByte v 0 = varintByte (decide (v >>> 7 ≠ 0)) (trunc 7 v) := by
  have hc : v.extractLsb' (7 * 0) 7 = trunc 7 v := by ext i hi; simp [trunc]
  have hf : decide (0 + 1 < varintLen v) = decide (v >>> 7 ≠ 0) := by
    by_cases h : v >>> 7 = 0
    · simp [varintLen_of_shift_zero v h, h]
    · have := varintLen_shift v h
      have := varintLen_pos (v >>> 7)
      rw [decide_eq_true h, decide_eq_true (by omega)]
  rw [encodedByte, hc, hf]

theorem encodedByte_succ {w : Nat} (v : BitVec w) (h : v >>> 7 ≠ 0) (i : Nat) :
    encodedByte v (i + 1) = encodedByte (v >>> 7) i := by
  have hl := varintLen_shift v h
  have hc : v.extractLsb' (7 * (i + 1)) 7 = (v >>> 7).extractLsb' (7 * i) 7 := by
    ext j hj
    simp [show 7 * (i + 1) + j = 7 + (7 * i + j) by ring]
  have hf : decide (i + 1 + 1 < varintLen v) = decide (i + 1 < varintLen (v >>> 7)) := by
    simp only [decide_eq_decide]; omega
  rw [encodedByte, encodedByte, hc, hf]

@[simp] theorem encoding_length {w : Nat} (v : BitVec w) : (encoding v).length = varintLen v := by simp [encoding]

/-- The encoding as R100 produces it: the low chunk, and the encoding of what is left. -/
theorem encoding_eq {w : Nat} (v : BitVec w) :
    encoding v = if v >>> 7 = 0 then [varintByte false (trunc 7 v)]
      else varintByte true (trunc 7 v) :: encoding (v >>> 7) := by
  by_cases h : v >>> 7 = 0
  · simp [encoding, varintLen_of_shift_zero v h, h, encodedByte_zero]
  · rw [if_neg h, encoding, ← varintLen_shift v h, List.range_succ_eq_map]
    simp only [List.map_cons, List.map_map, encodedByte_zero, h, ne_eq, not_false_eq_true, decide_true, encoding]
    congr 1
    apply List.map_congr_left
    intro i _
    exact encodedByte_succ v h i

/-! ## The value of a sequence -/

theorem payload_cons (b : Byte) (rest : List Byte) : payload (b :: rest) = (chunkOf b).toNat + 128 * payload rest := rfl

/-- R59 and R82: the chunk at the bottom, the rest seven bits up, and whatever does not fit dropped. -/
theorem sequenceValue_cons (w : Nat) (b : Byte) (rest : List Byte) :
    sequenceValue w (b :: rest) = (chunkOf b).setWidth w ||| (sequenceValue w rest <<< 7) := by
  apply BitVec.eq_of_getLsbD_eq
  intro j hj
  have hlt : (chunkOf b).toNat < 2 ^ 7 := (chunkOf b).isLt
  have hbit : (payload (b :: rest)).testBit j =
      if j < 7 then (chunkOf b).toNat.testBit j else (payload rest).testBit (j - 7) := by
    rw [payload_cons, show (chunkOf b).toNat + 128 * payload rest = 2 ^ 7 * payload rest + (chunkOf b).toNat by ring,
      Nat.testBit_two_pow_mul_add _ hlt]
  rw [sequenceValue, BitVec.getLsbD_ofNat, hbit, BitVec.getLsbD_or, BitVec.getLsbD_setWidth, BitVec.getLsbD_shiftLeft,
    sequenceValue, BitVec.getLsbD_ofNat]
  by_cases h7 : j < 7
  · simp [h7, hj, BitVec.testBit_toNat]
  · have : (chunkOf b).getLsbD j = false := BitVec.getLsbD_of_ge _ _ (by omega)
    simp [h7, hj, this, show j - 7 < w by omega]

/-- One step of the accumulator (R80). -/
theorem placeChunk_or_shift (w i : Nat) (acc : BitVec w) (b : Byte) (rest : List Byte) :
    (acc ||| placeChunk w i b) ||| (sequenceValue w rest <<< (7 * (i + 1))) =
      acc ||| (sequenceValue w (b :: rest) <<< (7 * i)) := by
  rw [sequenceValue_cons, placeChunk, BitVec.shiftLeft_or_distrib, BitVec.or_assoc,
    show 7 * (i + 1) = 7 + 7 * i by ring, BitVec.shiftLeft_add]

theorem sequenceValue_nil (w : Nat) : sequenceValue w [] = 0 := rfl

/-- A sequence of the encoder has the value it encodes (R61, R90). -/
theorem sequenceValue_encoding {w : Nat} (n : Nat) (v : BitVec w) (hn : varintLen v ≤ n) :
    sequenceValue w (encoding v) = v := by
  induction n generalizing v with
  | zero => have := varintLen_pos v; omega
  | succ n ih =>
    have hval : (trunc 7 v).setWidth w ||| ((v >>> 7) <<< 7) = v := by
      ext j hj
      simp only [trunc, BitVec.getElem_or, BitVec.getElem_setWidth, BitVec.getLsbD_setWidth,
        BitVec.getElem_shiftLeft, BitVec.getElem_ushiftRight, BitVec.getLsbD_eq_getElem hj]
      by_cases h7 : j < 7
      · simp [h7]
      · simp [h7, show 7 + (j - 7) = j by omega, BitVec.getLsbD_eq_getElem hj]
    rw [encoding_eq]
    split
    next h =>
      rw [sequenceValue_cons, chunkOf_varintByte, sequenceValue_nil]
      rw [h] at hval
      simpa using hval
    next h =>
      rw [sequenceValue_cons, chunkOf_varintByte, ih (v >>> 7) (by have := varintLen_shift v h; omega)]
      exact hval

/-- A sequence of the encoder is a varint sequence: bit 7 set on every byte but the last (R107). -/
theorem terminated_encoding {w : Nat} (n : Nat) (v : BitVec w) (hn : varintLen v ≤ n) :
    terminated (encoding v) = true := by
  induction n generalizing v with
  | zero => have := varintLen_pos v; omega
  | succ n ih =>
    rw [encoding_eq]
    split
    next h => simp [terminated]
    next h =>
      have ht := ih (v >>> 7) (by have := varintLen_shift v h; omega)
      have hne : encoding (v >>> 7) ≠ [] := by
        intro hc
        have hl := encoding_length (v >>> 7)
        have := varintLen_pos (v >>> 7)
        rw [hc] at hl
        simp only [List.length_nil] at hl
        omega
      cases he : encoding (v >>> 7) with
      | nil => exact absurd he hne
      | cons b rest => rw [he] at ht; simp [terminated, ht]

end Sys2Proof.Machine
end

