-- ==== Sys2Proof/Laws/Loops.lean ====
section
/-! SUPPORT. What the loops of the meanings do, said once: `readLoop` (spec/40_varint_read.md R80), `writeLoop`
(spec/41_varint_write.md R100) and `readBytes` (spec/43_type_detail.md R138). -/

namespace Sys2Proof.Machine

/-! ## Runs of accesses and stores -/

/-- Reads of `n` offsets from `i` on, ascending. -/
def readsFrom (i n : Nat) : List Access := (List.range' i n).map Access.read

/-- Writes of a sequence from offset `i` on, ascending. -/
def writesFrom : Nat → List Byte → List Access
  | _, [] => []
  | i, b :: bs => .write i b :: writesFrom (i + 1) bs

/-- The memory after a sequence is written from an address on. -/
def storeBytes : List Host.Cell → Nat → List Byte → List Host.Cell
  | m, _, [] => m
  | m, a, b :: bs => storeBytes (Memory.store m a b) (a + 1) bs

theorem readsFrom_succ (i n : Nat) : readsFrom i (n + 1) = .read i :: readsFrom (i + 1) n := by
  simp [readsFrom, List.range'_succ]

@[simp] theorem readsFrom_length (i n : Nat) : (readsFrom i n).length = n := by simp [readsFrom]

theorem readsTo_eq (n : Nat) : readsTo n = readsFrom 0 n := by simp [readsTo, readsFrom, List.range_eq_range']

@[simp] theorem writesFrom_length (i : Nat) (bs : List Byte) : (writesFrom i bs).length = bs.length := by
  induction bs generalizing i with
  | nil => rfl
  | cons b bs ih => simp [writesFrom, ih]

theorem writesFrom_eq_map (i : Nat) (f : Nat → Byte) (n : Nat) :
    writesFrom i ((List.range n).map f) = (List.range n).map fun j => .write (i + j) (f j) := by
  induction n generalizing i f with
  | zero => rfl
  | succ n ih =>
    rw [List.range_succ_eq_map, List.map_cons, List.map_cons, List.map_map, List.map_map, writesFrom, ih]
    simp only [Nat.add_zero, Function.comp_def, List.cons.injEq, true_and]
    exact List.map_congr_left fun j _ => by rw [Nat.succ_eq_add_one, Nat.add_assoc, Nat.add_comm 1 j]

theorem writesOf_eq {w : Nat} (v : BitVec w) : writesOf v = writesFrom 0 (encoding v) := by
  simp [writesOf, encoding, writesFrom_eq_map]

/-- Every byte of memory after a run of stores: the run's bytes inside, the old ones outside. -/
theorem byteAt_storeBytes (m : List Host.Cell) (a : Nat) (bs : List Byte) (x : Nat) :
    Memory.byteAt (storeBytes m a bs) x = if a ≤ x ∧ x < a + bs.length then bs[x - a]? else Memory.byteAt m x := by
  induction bs generalizing m a with
  | nil => simp [storeBytes]
  | cons b bs ih =>
    rw [storeBytes, ih, List.length_cons]
    by_cases h : x = a
    · subst h
      rw [if_neg (by omega), Memory.byteAt_store_same, if_pos (by omega)]
      simp
    · rw [Memory.byteAt_store_other _ _ h]
      by_cases hin : a + 1 ≤ x ∧ x < a + 1 + bs.length
      · rw [if_pos hin, if_pos (by omega), show x - a = (x - (a + 1)) + 1 by omega, List.getElem?_cons_succ]
      · rw [if_neg hin, if_neg (by omega)]

theorem wf_storeBytes {m : List Host.Cell} (h : Memory.wf m = true) (a : Nat) (bs : List Byte) :
    Memory.wf (storeBytes m a bs) = true := by
  induction bs generalizing m a with
  | nil => exact h
  | cons b bs ih => exact ih (Memory.wf_store h a b) (a + 1)

/-! ## The read loop -/

/-- Bytes with bit 7 set only move the loop on (R80). -/
theorem readLoop_continuing (w : Nat) (strict : Bool) {bs : List Byte} {left i : Nat} {acc : BitVec w} {s : State}
    (hall : ∀ b ∈ bs, continues b = true) (hleft : bs.length ≤ left) (hlen : i + bs.length ≤ s.cmd.buf.len)
    (hr : ∀ off < s.cmd.buf.len, readableAt s off = true)
    (hb : ∀ j b, bs[j]? = some b → bufferByte s (i + j) = some b) :
    readLoop w strict left i acc s =
      readLoop w strict (left - bs.length) (i + bs.length) (acc ||| (sequenceValue w bs <<< (7 * i)))
        (s.withAccesses (readsFrom i bs.length)) := by
  induction bs generalizing left i acc s with
  | nil =>
    have h0 : s.withAccesses (readsFrom i 0) = s := by simp [State.withAccesses, readsFrom]
    simp [sequenceValue_nil, h0]
  | cons b bs ih =>
    obtain ⟨left, rfl⟩ : ∃ k, left = k + 1 := ⟨left - 1, by simp only [List.length_cons] at hleft; omega⟩
    simp only [List.length_cons] at hleft hlen
    have hi : i < s.cmd.buf.len := by omega
    rw [readLoop, if_neg (by omega), memRead_of_readable (hr i hi) (by simpa using hb 0 b rfl)]
    simp only [hall b (by simp), if_true]
    have hb' : ∀ j c, bs[j]? = some c → bufferByte s (i + 1 + j) = some c := fun j c hc => by
      rw [show i + 1 + j = i + (j + 1) by omega]
      exact hb (j + 1) c (by simpa using hc)
    rw [ih (i := i + 1) (s := s.withAccesses [.read i]) (fun c hc => hall c (by simp [hc])) (by omega)
      (show i + 1 + bs.length ≤ s.cmd.buf.len by omega) hr hb', placeChunk_or_shift, List.length_cons, readsFrom_succ]
    simp only [State.withAccesses, List.append_assoc, List.singleton_append, Nat.add_assoc, Nat.add_comm 1,
      Nat.add_sub_add_right]

/-- A terminated sequence inside the declared length and the cap is answered with its value and length (R80, R84). -/
theorem readLoop_terminated (w : Nat) (strict : Bool) {bs : List Byte} {left i : Nat} {acc : BitVec w} {s : State}
    (hbs : terminated bs = true) (hleft : bs.length ≤ left) (hlen : i + bs.length ≤ s.cmd.buf.len)
    (hr : ∀ off < s.cmd.buf.len, readableAt s off = true)
    (hb : ∀ j b, bs[j]? = some b → bufferByte s (i + j) = some b) :
    readLoop w strict left i acc s =
      .next (respond .ok (zext64 (acc ||| (sequenceValue w bs <<< (7 * i)))) (i + bs.length)
        (s.withAccesses (readsFrom i bs.length))) := by
  induction bs generalizing left i acc s with
  | nil => simp [terminated] at hbs
  | cons b bs ih =>
    obtain ⟨left, rfl⟩ : ∃ k, left = k + 1 := ⟨left - 1, by simp only [List.length_cons] at hleft; omega⟩
    simp only [List.length_cons] at hleft hlen
    have hi : i < s.cmd.buf.len := by omega
    rw [readLoop, if_neg (by omega), memRead_of_readable (hr i hi) (by simpa using hb 0 b rfl)]
    cases bs with
    | nil =>
      have hc : continues b = false := by simpa [terminated] using hbs
      simp only [hc, Bool.false_eq_true, if_false, returnOk_eq]
      have := placeChunk_or_shift w i acc b []
      rw [sequenceValue_nil] at this
      simp only [BitVec.ofNat_eq_ofNat, BitVec.zero_shiftLeft, BitVec.or_zero] at this
      rw [this]
      rfl
    | cons b' bs =>
      simp only [terminated, Bool.and_eq_true] at hbs
      simp only [hbs.1, if_true]
      have hb' : ∀ j c, (b' :: bs)[j]? = some c → bufferByte s (i + 1 + j) = some c := fun j c hc => by
        rw [show i + 1 + j = i + (j + 1) by omega]
        exact hb (j + 1) c (by simpa using hc)
      rw [ih (i := i + 1) (s := s.withAccesses [.read i]) hbs.2 (by omega)
        (show i + 1 + (b' :: bs).length ≤ s.cmd.buf.len by omega) hr hb', placeChunk_or_shift, List.length_cons (a := b), readsFrom_succ i]
      simp only [State.withAccesses, List.append_assoc, List.singleton_append, Nat.add_assoc, Nat.add_comm 1]

/-- How a read loop can end (R80, R163): it has read `k` offsets from `i` on, ascending, and answers OK with a count, or
one of the two errors with nothing. -/
theorem readLoop_cases {w : Nat} {strict : Bool} {left i : Nat} {acc : BitVec w} {s t : State}
    (h : readLoop w strict left i acc s = .next t) :
    ∃ k ≤ left, ∃ st r n, t = respond st r n (s.withAccesses (readsFrom i k)) ∧
      ((st = .ok ∧ n = i + k ∧ ∃ v : BitVec w, r = zext64 v) ∨
        (st = .invalidArgument ∧ r = 0 ∧ n = 0 ∧ i + k = max i s.cmd.buf.len) ∨
        (st = .truncated ∧ r = 0 ∧ n = 0 ∧ strict = true ∧ k = left)) := by
  induction left generalizing i acc s with
  | zero =>
    have h0 : s.withAccesses (readsFrom i 0) = s := by simp [State.withAccesses, readsFrom]
    refine ⟨0, Nat.le_refl 0, ?_⟩
    cases strict <;> simp only [readLoop, capStatus, if_true, Bool.false_eq_true, if_false, returnOk_eq, raise_eq,
      Host.Outcome.next.injEq] at h <;> subst h
    · exact ⟨.ok, zext64 acc, i, by rw [h0], .inl ⟨rfl, rfl, acc, rfl⟩⟩
    · exact ⟨.truncated, 0, 0, by rw [h0], .inr (.inr ⟨rfl, rfl, rfl, rfl, rfl⟩)⟩
  | succ left ih =>
    rw [readLoop] at h
    split at h
    next hlen =>
      have h0 : s.withAccesses (readsFrom i 0) = s := by simp [State.withAccesses, readsFrom]
      simp only [raise_eq, Host.Outcome.next.injEq] at h
      subst h
      exact ⟨0, by omega, .invalidArgument, 0, 0, by rw [h0], .inr (.inl ⟨rfl, rfl, rfl, by omega⟩)⟩
    next hlen =>
      split at h
      next => exact absurd h (by simp)
      next b s1 hm =>
        obtain ⟨-, -, rfl⟩ := memRead_some hm
        split at h
        next hc =>
          obtain ⟨k, hk, st, r, n, rfl, hcases⟩ := ih h
          refine ⟨k + 1, by omega, st, r, n, ?_, ?_⟩
          · simp [State.withAccesses, readsFrom_succ]
          · rcases hcases with ⟨h1, h2, h3⟩ | ⟨h1, h2, h3, h4⟩ | ⟨h1, h2, h3, h4, h5⟩
            · exact .inl ⟨h1, by omega, h3⟩
            · exact .inr (.inl ⟨h1, h2, h3, by simp only at h4; omega⟩)
            · exact .inr (.inr ⟨h1, h2, h3, h4, by omega⟩)
        next hc =>
          simp only [returnOk_eq, Host.Outcome.next.injEq] at h
          subst h
          exact ⟨1, by omega, .ok, _, i + 1, rfl, .inl ⟨rfl, rfl, _, rfl⟩⟩

/-- A read loop over readable bytes answers (R198). -/
theorem readLoop_answers (w : Nat) (strict : Bool) (left i : Nat) (acc : BitVec w) {s : State}
    (hr : ∀ off < s.cmd.buf.len, readableAt s off = true) : ∃ t, readLoop w strict left i acc s = .next t := by
  induction left generalizing i acc s with
  | zero => cases strict <;> exact ⟨_, rfl⟩
  | succ left ih =>
    rw [readLoop]
    split
    next => exact ⟨_, rfl⟩
    next hlen =>
      obtain ⟨b, hb⟩ := bufferByte_of_readable (hr i (by omega))
      rw [memRead_of_readable (hr i (by omega)) hb]
      by_cases hc : continues b = true
      · simp only [hc, if_true]
        exact ih (s := s.withAccesses [.read i]) (i + 1) _ hr
      · simp only [hc]
        exact ⟨_, rfl⟩

/-! ## The write loop -/

/-- What the write loop does (R100, R103): the encoding of what is left lies from offset `i` on, and nothing else in memory
changes. -/
theorem writeLoop_eq {w : Nat} {left i : Nat} {rem : BitVec w} {s : State} (hleft : varintLen rem ≤ left)
    (hlen : i + varintLen rem ≤ s.cmd.buf.len) (hw : ∀ off < s.cmd.buf.len, writableAt s off = true) :
    writeLoop left i rem s =
      .next (respond .ok 0 (i + varintLen rem)
        { s with mem := storeBytes s.mem (s.cmd.buf.base + i) (encoding rem)
                 accesses := s.accesses ++ writesFrom i (encoding rem) }) := by
  induction left generalizing i rem s with
  | zero => have := varintLen_pos rem; omega
  | succ left ih =>
    have hpos := varintLen_pos rem
    have hi := hw i (by omega)
    rw [writeLoop]
    by_cases h : rem >>> 7 = 0
    · rw [if_pos h, memWrite_of_writable _ hi]
      simp [encoding_eq rem, h, varintLen_of_shift_zero rem h, storeBytes, writesFrom, bufferAddr_eq]
    · have hl := varintLen_shift rem h
      rw [if_neg h, memWrite_of_writable _ hi]
      have hw' : ∀ off < s.cmd.buf.len, writableAt { s with
          mem := Memory.store s.mem (bufferAddr s.cmd i) (varintByte true (trunc 7 rem))
          accesses := s.accesses ++ [.write i (varintByte true (trunc 7 rem))] } off = true := by
        intro off hoff
        rw [writableAt_after_write (memWrite_of_writable _ hi)]
        exact hw off hoff
      simp only
      rw [show rem >>> Config.chunk = rem >>> 7 from rfl, ih (by omega) (by simp only; omega) hw', encoding_eq rem, if_neg h]
      simp only [storeBytes, writesFrom, bufferAddr_eq, List.append_assoc, List.singleton_append,
        show i + 1 + varintLen (rem >>> 7) = i + varintLen rem by omega, Nat.add_assoc]

/-- A write that has passed its checks (R100, R104, R105). -/
theorem varintWrite_ok {w cap : Nat} {v : BitVec w} {s : State} (hcap : w ≤ 7 * cap) (hc : 1 ≤ cap)
    (hp : s.cmd.buf.present = true) (ht : truthfulWrite s = true) (hlen : varintLen v ≤ s.cmd.buf.len) :
    varintWrite cap v s =
      .next (respond .ok 0 (varintLen v)
        { s with mem := storeBytes s.mem s.cmd.buf.base (encoding v), accesses := s.accesses ++ writesOf v }) := by
  have hl : lengthStatus s.cmd.buf.len (varintLen v) = .ok := by simp [lengthStatus]; omega
  rw [varintWrite, withWriteBuffer, if_pos hp, if_pos ht]
  simp only [hl]
  rw [writeLoop_eq (varintLen_le_cap v hcap hc) (by omega) (truthfulWrite_iff.1 ht), writesOf_eq]
  simp

/-- How a write can end (R105, R163, R194). -/
theorem varintWrite_cases {w cap : Nat} {v : BitVec w} {s : State} (hcap : w ≤ 7 * cap) (hc : 1 ≤ cap) :
    (s.cmd.buf.present = false ∧ varintWrite cap v s = raise .invalidArgument 0 s) ∨
    (s.cmd.buf.present = true ∧ truthfulWrite s = false ∧ varintWrite cap v s = .refused .untruthfulBuffer) ∨
    (s.cmd.buf.present = true ∧ truthfulWrite s = true ∧ s.cmd.buf.len < varintLen v ∧
      varintWrite cap v s = raise .invalidArgument 0 s) ∨
    (s.cmd.buf.present = true ∧ truthfulWrite s = true ∧ varintLen v ≤ s.cmd.buf.len ∧
      varintWrite cap v s = .next (respond .ok 0 (varintLen v)
        { s with mem := storeBytes s.mem s.cmd.buf.base (encoding v), accesses := s.accesses ++ writesOf v })) := by
  cases hp : s.cmd.buf.present
  · exact .inl ⟨rfl, by simp [varintWrite, withWriteBuffer, hp]⟩
  · cases ht : truthfulWrite s
    · exact .inr (.inl ⟨rfl, rfl, by simp [varintWrite, withWriteBuffer, hp, ht]⟩)
    · by_cases hlen : s.cmd.buf.len < varintLen v
      · exact .inr (.inr (.inl ⟨rfl, rfl, hlen, by simp [varintWrite, withWriteBuffer, hp, ht, lengthStatus, hlen]⟩))
      · exact .inr (.inr (.inr ⟨rfl, rfl, by omega, varintWrite_ok hcap hc hp ht (by omega)⟩))

/-! ## The reads of `initialize` -/

/-- Reads of consecutive readable offsets give their bytes. -/
theorem readBytes_eq {bs : List Byte} {i : Nat} {s : State} (hr : ∀ j < bs.length, readableAt s (i + j) = true)
    (hb : ∀ j b, bs[j]? = some b → bufferByte s (i + j) = some b) :
    readBytes bs.length i s = some (bs, s.withAccesses (readsFrom i bs.length)) := by
  induction bs generalizing i s with
  | nil => simp [readBytes, State.withAccesses, readsFrom]
  | cons b bs ih =>
    have hb' : ∀ j c, bs[j]? = some c → bufferByte s (i + 1 + j) = some c := fun j c hc => by
      rw [show i + 1 + j = i + (j + 1) by omega]
      exact hb (j + 1) c (by simpa using hc)
    rw [List.length_cons, readBytes, memRead_of_readable (off := i) (hr 0 (by simp)) (by simpa using hb 0 b rfl)]
    simp only
    rw [ih (i := i + 1) (s := s.withAccesses [.read i])
      (fun j hj => by rw [show i + 1 + j = i + (j + 1) by omega]; exact hr (j + 1) (by simpa using hj)) hb']
    simp [State.withAccesses, readsFrom_succ]

/-- The bytes at readable offsets, as a list. -/
theorem exists_bytes (n : Nat) {s : State} (hr : ∀ off < n, readableAt s off = true) :
    ∃ bs : List Byte, bs.length = n ∧ beginsWith s bs := by
  induction n with
  | zero => exact ⟨[], rfl, by simp [beginsWith]⟩
  | succ n ih =>
    obtain ⟨bs, hl, hb⟩ := ih fun off h => hr off (by omega)
    obtain ⟨b, hbn⟩ := bufferByte_of_readable (hr n (by omega))
    refine ⟨bs ++ [b], by simp [hl], fun i c hc => ?_⟩
    by_cases hi : i < bs.length
    · exact hb i c (by rwa [List.getElem?_append_left hi] at hc)
    · rw [List.getElem?_append_right (by omega)] at hc
      have : i - bs.length = 0 := by
        by_contra h0
        rw [List.getElem?_eq_none (by simp; omega)] at hc
        exact absurd hc (by simp)
      rw [this] at hc
      simp only [List.getElem?_cons_zero, Option.some.injEq] at hc
      rw [show i = n by omega, hbn, hc]

/-- `initialize` on a buffer of at least four bytes (R138). -/
theorem initDetail_ok {strict : Bool} {s : State} {b0 b1 b2 b3 : Byte} (hp : s.cmd.buf.present = true)
    (ht : truthfulRead s = true) (hlen : 4 ≤ s.cmd.buf.len) (hb : beginsWith s [b0, b1, b2, b3]) :
    execInitDetail strict s =
      .next (respond .ok (zext64 (detailOfBytes b0 b1 b2 b3)) 4 (s.withAccesses (readsTo 4))) := by
  have hl : lengthStatus s.cmd.buf.len Config.nativeBytes = .ok := by simp [lengthStatus]; omega
  have hr := truthfulRead_iff.1 ht
  have := readBytes_eq (bs := [b0, b1, b2, b3]) (i := 0) (s := s)
    (fun j hj => by simp only [List.length_cons, List.length_nil] at hj; simpa using hr j (by omega))
    (fun j b h => by simpa using hb j b h)
  simp only [List.length_cons, List.length_nil] at this
  rw [execInitDetail, withReadBuffer, if_pos hp, if_pos ht]
  simp only [hl]
  rw [this, readsTo_eq]
  rfl

end Sys2Proof.Machine
end

