-- ==== Sys2Proof/Laws/PerInstr.lean ====
section
/-! SUPPORT. The family `EncodedWord`: what the command word of an operation looks like (spec/30_encoding.md R50, R55), one
lemma per constructor of `Instr`. -/

namespace Sys2Proof.Laws.EncodedWord

/-- The command word is a defined one, its opcode field is the operation's and its bit 4 the strict bit. -/
def Statement (i : Instr) : Prop :=
  i.wellFormed = true ∧ wordDefined (encodeWord i) = true ∧ (encodeWord i).extractLsb' 0 4 = i.opcode ∧
    (encodeWord i).getLsbD 4 = i.strict

theorem readVarintU32 (b : Bool) : Statement (.readVarintU32 b) := by cases b <;> exact ⟨rfl, rfl, rfl, rfl⟩
theorem writeVarintU32 (b : Bool) : Statement (.writeVarintU32 b) := by cases b <;> exact ⟨rfl, rfl, rfl, rfl⟩
theorem readVarintU64 (b : Bool) : Statement (.readVarintU64 b) := by cases b <;> exact ⟨rfl, rfl, rfl, rfl⟩
theorem writeVarintU64 (b : Bool) : Statement (.writeVarintU64 b) := by cases b <;> exact ⟨rfl, rfl, rfl, rfl⟩
theorem readVarintI32 (b : Bool) : Statement (.readVarintI32 b) := by cases b <;> exact ⟨rfl, rfl, rfl, rfl⟩
theorem writeVarintI32 (b : Bool) : Statement (.writeVarintI32 b) := by cases b <;> exact ⟨rfl, rfl, rfl, rfl⟩
theorem readVarintI64 (b : Bool) : Statement (.readVarintI64 b) := by cases b <;> exact ⟨rfl, rfl, rfl, rfl⟩
theorem writeVarintI64 (b : Bool) : Statement (.writeVarintI64 b) := by cases b <;> exact ⟨rfl, rfl, rfl, rfl⟩
theorem kindGet (b : Bool) : Statement (.kindGet b) := by cases b <;> exact ⟨rfl, rfl, rfl, rfl⟩
theorem kindSet (b : Bool) : Statement (.kindSet b) := by cases b <;> exact ⟨rfl, rfl, rfl, rfl⟩
theorem ordinalGet (b : Bool) : Statement (.ordinalGet b) := by cases b <;> exact ⟨rfl, rfl, rfl, rfl⟩
theorem ordinalSet (b : Bool) : Statement (.ordinalSet b) := by cases b <;> exact ⟨rfl, rfl, rfl, rfl⟩
theorem initDetail (b : Bool) : Statement (.initDetail b) := by cases b <;> exact ⟨rfl, rfl, rfl, rfl⟩

end Sys2Proof.Laws.EncodedWord
end

