-- ==== Sys2Proof/Laws/Step.lean ====
section
/-! SUPPORT. What an operation can do, said once (`exec_next`), and what follows for the memory and the port. -/

namespace Sys2Proof.Machine

/-- How a reader can end, if it answers (R80, R87, R163). -/
theorem varintRead_next {w cap : Nat} {strict : Bool} {s t : State} (h : varintRead w cap strict s = .next t) :
    ∃ k ≤ cap, ∃ st r n, t = respond st r n (s.withAccesses (readsTo k)) ∧
      ((st = .ok ∧ n = k ∧ ∃ v : BitVec w, r = zext64 v) ∨
        (st = .invalidArgument ∧ r = 0 ∧ n = 0) ∨ (st = .truncated ∧ r = 0 ∧ n = 0 ∧ strict = true ∧ k = cap)) := by
  unfold varintRead withReadBuffer at h
  split at h
  next =>
    split at h
    next =>
      obtain ⟨k, hk, st, r, n, rfl, hc⟩ := readLoop_cases h
      refine ⟨k, hk, st, r, n, by rw [readsTo_eq], ?_⟩
      rcases hc with ⟨h1, h2, h3⟩ | ⟨h1, h2, h3, -⟩ | h5
      · exact .inl ⟨h1, by omega, h3⟩
      · exact .inr (.inl ⟨h1, h2, h3⟩)
      · exact .inr (.inr h5)
    next => exact absurd h (by simp)
  next =>
    simp only [raise_eq, Host.Outcome.next.injEq] at h
    subst h
    exact ⟨0, by omega, .invalidArgument, 0, 0, by simp [State.withAccesses, readsTo], .inr (.inl ⟨rfl, rfl, rfl⟩)⟩

/-- How a writer can end, if it answers (R100, R105). -/
theorem varintWrite_next {w cap : Nat} {v : BitVec w} {s t : State} (hcap : w ≤ 7 * cap) (hc : 1 ≤ cap)
    (h : varintWrite cap v s = .next t) :
    t = respond .invalidArgument 0 0 s ∨
      (varintLen v ≤ s.cmd.buf.len ∧ truthfulWrite s = true ∧ s.cmd.buf.present = true ∧
        t = respond .ok 0 (varintLen v)
          { s with mem := storeBytes s.mem s.cmd.buf.base (encoding v), accesses := s.accesses ++ writesOf v }) := by
  rcases varintWrite_cases (s := s) (v := v) hcap hc with ⟨-, he⟩ | ⟨-, -, he⟩ | ⟨-, -, -, he⟩ | ⟨hp, ht, hl, he⟩ <;>
    rw [he] at h <;> simp only [raise_eq, Host.Outcome.next.injEq, reduceCtorEq] at h <;> subst h
  · exact .inl rfl
  · exact .inl rfl
  · exact .inr ⟨hl, ht, hp, rfl⟩

/-- How `initialize` can end, if it answers (R138). -/
theorem initDetail_next {strict : Bool} {s t : State} (h : execInitDetail strict s = .next t) :
    t = respond .invalidArgument 0 0 s ∨ ∃ d : Word32, t = respond .ok (zext64 d) 4 (s.withAccesses (readsTo 4)) := by
  cases hp : s.cmd.buf.present
  · simp only [execInitDetail, withReadBuffer, hp, Bool.false_eq_true, if_false, raise_eq,
      Host.Outcome.next.injEq] at h
    exact .inl h.symm
  · cases ht : truthfulRead s
    · simp [execInitDetail, withReadBuffer, hp, ht] at h
    · by_cases hlen : s.cmd.buf.len < 4
      · simp only [execInitDetail, withReadBuffer, hp, ht, if_true, lengthStatus, hlen, raise_eq,
          Host.Outcome.next.injEq] at h
        exact .inl h.symm
      · have hr := truthfulRead_iff.1 ht
        obtain ⟨bs, hl, hb⟩ := exists_bytes 4 (s := s) fun off ho => hr off (by omega)
        match bs, hl with
        | [b0, b1, b2, b3], _ =>
          rw [initDetail_ok hp ht (by omega) hb, Host.Outcome.next.injEq] at h
          exact .inr ⟨_, h.symm⟩

/-- The first way to answer: `k` bytes of the buffer are read, at most ten, and a legal record is given; nothing else of
the state changes. -/
def AnswersReading (s t : State) : Prop :=
  ∃ k ≤ 10, ∃ st r n, t = respond st r n (s.withAccesses (readsTo k)) ∧
    Response.shape ⟨st, r, BitVec.ofNat 8 n⟩ = true

/-- The second: an encoding is stored at the start of the buffer and the answer is OK; nothing else changes. -/
def AnswersWriting (s t : State) : Prop :=
  ∃ w, ∃ v : BitVec w, varintLen v ≤ 10 ∧ varintLen v ≤ s.cmd.buf.len ∧ truthfulWrite s = true ∧
    s.cmd.buf.present = true ∧
    t = respond .ok 0 (varintLen v)
      { s with mem := storeBytes s.mem s.cmd.buf.base (encoding v), accesses := s.accesses ++ writesOf v }

theorem answersReading_of_respond {st : Status} {r : Word64} {s t : State} (hs : Response.shape ⟨st, r, 0⟩ = true)
    (he : respond st r 0 s = t) : AnswersReading s t :=
  ⟨0, by omega, st, r, 0, by simp [State.withAccesses, readsTo, ← he], hs⟩

theorem answersReading_of_varintRead {w cap : Nat} {strict : Bool} {s t : State} (hcap : cap ≤ 10)
    (h : varintRead w cap strict s = .next t) : AnswersReading s t := by
  obtain ⟨k, hk, st, r, n, ht, hc⟩ := varintRead_next h
  refine ⟨k, by omega, st, r, n, ht, ?_⟩
  rcases hc with ⟨rfl, rfl, -⟩ | ⟨rfl, rfl, rfl⟩ | ⟨rfl, rfl, rfl, -⟩
  · simp only [Response.shape, BitVec.toNat_ofNat, decide_eq_true_eq]; omega
  · simp [Response.shape]
  · simp [Response.shape]

theorem answers_of_varintWrite {w cap : Nat} {v : BitVec w} {s t : State} (hcap : w ≤ 7 * cap) (hc : 1 ≤ cap)
    (h10 : cap ≤ 10) (h : varintWrite cap v s = .next t) : AnswersReading s t ∨ AnswersWriting s t := by
  rcases varintWrite_next hcap hc h with he | ⟨hl, ht, hp, he⟩
  · exact .inl (answersReading_of_respond (by simp [Response.shape]) he.symm)
  · exact .inr ⟨w, v, (varintLen_le_cap v hcap hc).trans h10, hl, ht, hp, he⟩

/-- Everything an operation can do, if it answers. -/
theorem exec_next {i : Instr} {s t : State} (h : exec i s = .next t) :
    AnswersReading s t ∨ (bufferUse i = .writes ∧ AnswersWriting s t) := by
  cases i with
  | readVarintU32 b => exact .inl (answersReading_of_varintRead (by norm_num) h)
  | readVarintU64 b => exact .inl (answersReading_of_varintRead (by norm_num) h)
  | readVarintI32 b => exact .inl (answersReading_of_varintRead (by norm_num) h)
  | readVarintI64 b => exact .inl (answersReading_of_varintRead (by norm_num) h)
  | writeVarintU32 b => exact (answers_of_varintWrite (by norm_num) (by norm_num) (by norm_num) h).imp id fun hw => ⟨rfl, hw⟩
  | writeVarintU64 b => exact (answers_of_varintWrite (by norm_num) (by norm_num) (by norm_num) h).imp id fun hw => ⟨rfl, hw⟩
  | writeVarintI32 b => exact (answers_of_varintWrite (by norm_num) (by norm_num) (by norm_num) h).imp id fun hw => ⟨rfl, hw⟩
  | writeVarintI64 b => exact (answers_of_varintWrite (by norm_num) (by norm_num) (by norm_num) h).imp id fun hw => ⟨rfl, hw⟩
  | kindGet b =>
    simp only [exec, execKindGet, kindStatus] at h
    have hk : (zext64 (kindField (operandLow s.cmd))).toNat = (kindField (operandLow s.cmd)).toNat := by
      simp only [zext64, BitVec.toNat_setWidth]
      exact Nat.mod_eq_of_lt ((kindField (operandLow s.cmd)).isLt.trans (by norm_num))
    by_cases h4 : 4 ≤ (kindField (operandLow s.cmd)).toNat
    · simp only [h4, if_true, raise_eq, Host.Outcome.next.injEq] at h
      have := (kindField (operandLow s.cmd)).isLt
      refine .inl (answersReading_of_respond ?_ h)
      simp only [Response.shape, hk, Bool.and_eq_true, decide_eq_true_eq]
      exact ⟨⟨trivial, h4⟩, by omega⟩
    · simp only [h4, if_false, returnOk_eq, Host.Outcome.next.injEq] at h
      exact .inl (answersReading_of_respond (by simp [Response.shape]) h)
  | kindSet b => exact .inl (answersReading_of_respond (st := .ok) (by simp [Response.shape]) (Host.Outcome.next.inj h))
  | ordinalGet b => exact .inl (answersReading_of_respond (st := .ok) (by simp [Response.shape]) (Host.Outcome.next.inj h))
  | ordinalSet b => exact .inl (answersReading_of_respond (st := .ok) (by simp [Response.shape]) (Host.Outcome.next.inj h))
  | initDetail b =>
    rcases initDetail_next (strict := b) h with he | ⟨d, he⟩
    · exact .inl (answersReading_of_respond (by simp [Response.shape]) he.symm)
    · exact .inl ⟨4, by omega, .ok, _, 4, he, by simp [Response.shape]⟩

/-! ## Footprints -/

theorem footprint_readsTo {k : Nat} (h : k ≤ 10) : Access.footprint (readsTo k) := by
  refine ⟨?_, by simpa [readsTo] using h, .inl ?_⟩
  · simp [readsTo, Function.comp_def, Access.offset]
  · intro x hx
    simp only [readsTo, List.mem_map] at hx
    obtain ⟨j, -, rfl⟩ := hx
    rfl

theorem footprint_writesOf {w : Nat} {v : BitVec w} (h : varintLen v ≤ 10) : Access.footprint (writesOf v) := by
  refine ⟨?_, by simpa [writesOf] using h, .inr ?_⟩
  · simp [writesOf, Function.comp_def, Access.offset]
  · intro x hx
    simp only [writesOf, List.mem_map] at hx
    obtain ⟨j, -, rfl⟩ := hx
    simp

/-! ## The port -/

/-- Another agent's accesses change the memory alone (R172). -/
theorem applyTouches_eq (others : List Touch) (s : State) :
    applyTouches others s = { s with mem := (applyTouches others s).mem } := by
  induction others generalizing s with
  | nil => rfl
  | cons x rest ih =>
    cases x with
    | read a => exact ih s
    | write a v =>
      show applyTouches rest (hostStore a v s) = _
      rw [ih]
      rfl

@[simp] theorem applyTouches_unreadable (others : List Touch) (s : State) :
    (applyTouches others s).unreadable = s.unreadable := by rw [applyTouches_eq]
@[simp] theorem applyTouches_unwritable (others : List Touch) (s : State) :
    (applyTouches others s).unwritable = s.unwritable := by rw [applyTouches_eq]
@[simp] theorem applyTouches_pending (others : List Touch) (s : State) :
    (applyTouches others s).pending = s.pending := by rw [applyTouches_eq]
@[simp] theorem applyTouches_rst (others : List Touch) (s : State) :
    (applyTouches others s).rst = s.rst := by rw [applyTouches_eq]
@[simp] theorem applyTouches_cmd (others : List Touch) (s : State) :
    (applyTouches others s).cmd = s.cmd := by rw [applyTouches_eq]
@[simp] theorem applyTouches_rsp (others : List Touch) (s : State) :
    (applyTouches others s).rsp = s.rsp := by rw [applyTouches_eq]
@[simp] theorem applyTouches_accesses (others : List Touch) (s : State) :
    (applyTouches others s).accesses = s.accesses := by rw [applyTouches_eq]
@[simp] theorem applyTouches_freeCount (others : List Touch) (s : State) :
    (applyTouches others s).freeCount = s.freeCount := by rw [applyTouches_eq]

theorem wf_applyTouches (others : List Touch) {s : State} (h : Memory.wf s.mem = true) :
    Memory.wf (applyTouches others s).mem = true := by
  induction others generalizing s with
  | nil => exact h
  | cons x rest ih =>
    cases x with
    | read a => exact ih h
    | write a v => exact ih (Memory.wf_store h a v)

theorem applyTouches_append (front back : List Touch) (s : State) :
    applyTouches (front ++ back) s = applyTouches back (applyTouches front s) := by
  induction front generalizing s with
  | nil => rfl
  | cons x rest ih => cases x <;> exact ih _

/-- An address that the other agent does not write is as before (R40). -/
theorem byteAt_applyTouches_other {others : List Touch} {addr : Nat} (s : State) (h : ∀ v, .write addr v ∉ others) :
    Memory.byteAt (applyTouches others s).mem addr = Memory.byteAt s.mem addr := by
  induction others generalizing s with
  | nil => rfl
  | cons x rest ih =>
    have hrest : ∀ v, .write addr v ∉ rest := fun v hv => h v (List.mem_cons_of_mem _ hv)
    cases x with
    | read a => exact ih s hrest
    | write a v =>
      have hne : addr ≠ a := fun he => h v (by rw [he]; exact List.mem_cons_self)
      rw [applyTouches, ih _ hrest, hostStore_mem, Memory.byteAt_store_other _ _ hne]

/-- An address reads as the other agent's last write to it (R40). -/
theorem byteAt_applyTouches_last (front : List Touch) {back : List Touch} {addr : Nat} (v : Byte) (s : State)
    (h : ∀ v', .write addr v' ∉ back) :
    Memory.byteAt (applyTouches (front ++ .write addr v :: back) s).mem addr = some v := by
  rw [applyTouches_append, applyTouches, byteAt_applyTouches_other _ h, hostStore_mem, Memory.byteAt_store_same]

/-- The other agent's accesses make equal bytes of equal bytes. -/
theorem byteAt_applyTouches_congr (others : List Touch) {s s' : State} {addr : Nat}
    (h : Memory.byteAt s.mem addr = Memory.byteAt s'.mem addr) :
    Memory.byteAt (applyTouches others s).mem addr = Memory.byteAt (applyTouches others s').mem addr := by
  induction others generalizing s s' with
  | nil => exact h
  | cons x rest ih =>
    cases x with
    | read a => exact ih h
    | write a v => exact ih (by simp only [hostStore_mem, Memory.byteAt_store, h])

/-- An abandoned reader has changed nothing (R192). -/
theorem abandonedMem_readsFrom (k base i n : Nat) (m : List Host.Cell) :
    abandonedMem k base (readsFrom i n) m = m := by
  induction n generalizing i with
  | zero => rfl
  | succ n ih => rw [readsFrom_succ]; exact ih _

/-- An abandoned write leaves the canonical form (R192). -/
theorem wf_abandonedMem (k base : Nat) (as : List Access) {m : List Host.Cell} (h : Memory.wf m = true) :
    Memory.wf (abandonedMem k base as m) = true := by
  induction as generalizing m with
  | nil => exact h
  | cons x rest ih =>
    cases x with
    | read a => exact ih h
    | write off v =>
      rw [abandonedMem]
      split
      · exact ih (Memory.wf_store h _ v)
      · exact ih h

end Sys2Proof.Machine
end

