-- ==== Sys2Proof/Tests/Slice0.lean ====
section
/-! SUPPORT. The model's own tests. Expected results are the worked examples and vectors of spec/95_test_vectors.md (its
part and row is named at each test), or words written out by hand from spec/30_encoding.md R50 and R51. After them, for
each statement with hypotheses, states and operands that meet all of them together. -/

namespace Sys2Proof.Tests

open Sys2Proof.Machine Sys2Proof.Claims

/-! ## Helpers -/

/-- Bytes, written as numbers. -/
def bytes (ns : List Nat) : List Byte := ns.map (BitVec.ofNat 8)

/-- A memory that holds these bytes from an address on. -/
def cells : Nat → List Byte → List Host.Cell
  | _, [] => []
  | addr, b :: rest => (addr, b) :: cells (addr + 1) rest

/-- A command on the whole buffer of `n` bytes at address 100. -/
def command (word : Byte) (a : Word64) (b : Word32) (n : Nat) : Command := ⟨word, a, b, ⟨true, n, 100⟩⟩

/-- The same operands on an absent buffer. -/
def bare (word : Byte) (a : Word64) (b : Word32) : Command := ⟨word, a, b, ⟨false, 0, 0⟩⟩

/-- After reset the host's memory holds these bytes at address 100, and these acts come next. -/
def host (ns : List Nat) (acts : List HostAct) : State :=
  { State.reset with mem := cells 100 (bytes ns), pending := acts }

/-- The host offers one command on a buffer with these bytes. -/
def offer (word : Byte) (a : Word64) (b : Word32) (ns : List Nat) : State :=
  host ns [.issue (command word a b ns.length)]

/-- The block has accepted a command on a buffer with these bytes. -/
def holds (a : Word64) (ns : List Nat) : State := { host ns [] with cmd := command 0 a 0 ns.length }

/-- The same bytes, with another declared length. -/
def declares (len : Nat) (s : State) : State := { s with cmd := { s.cmd with buf := { s.cmd.buf with len := len } } }

/-- The command the block has accepted has no buffer. -/
def holdsNone (a : Word64) (len : Nat) : State := { State.reset with cmd := ⟨0, a, 0, ⟨false, len, 0⟩⟩ }

/-- What the host sees of an outcome: the response, the bytes of its memory, and the accesses at the port. -/
def seen : Result → Option (Response × List Byte × List Access)
  | .next t => t.rsp.map fun r => (r, t.mem.map (·.2), t.accesses)
  | .fault _ => none
  | .refused _ => none

/-- Why an outcome is no next state. -/
def refusal : Result → Option Refusal
  | .next _ => none
  | .fault _ => none
  | .refused r => some r

/-- The accesses that write these bytes from offset 0 on. -/
def writes (ns : List Nat) : List Access := (bytes ns).zipIdx.map fun x => .write x.2 x.1

/-! ## WellFormed refuses -/

theorem test_reserved_bit_is_refused : reservedClear 0x20#8 = false := by decide
theorem test_opcode_0xD_is_refused : opcodeDefined 0xD#4 = false := by decide
theorem test_word_with_reserved_bit_is_refused : wordDefined 0x2C#8 = false := by decide
theorem test_word_with_reserved_opcode_is_refused : wordDefined 0x1F#8 = false := by decide
theorem test_length_beyond_the_port_is_refused : lengthFits 4 16 = false := by decide
theorem test_port_of_three_bits_is_refused : lengthFits 3 1 = false := by decide
theorem test_longest_length_is_accepted : lengthFits 8 255 = true := by decide

/-! ## Decoding: words written out from R50 (`rsv` 000, `strict`, `op`) and R51 -/

theorem test_decode_read_varint_u32 : decode [0b00000000#8] = .ok (.readVarintU32 false, []) := by decide
theorem test_decode_write_varint_u32 : decode [0b00000001#8] = .ok (.writeVarintU32 false, []) := by decide
theorem test_decode_read_varint_u64 : decode [0b00010010#8] = .ok (.readVarintU64 true, []) := by decide
theorem test_decode_write_varint_u64 : decode [0b00000011#8] = .ok (.writeVarintU64 false, []) := by decide
theorem test_decode_read_varint_i32 : decode [0b00010100#8] = .ok (.readVarintI32 true, []) := by decide
theorem test_decode_write_varint_i32 : decode [0b00000101#8] = .ok (.writeVarintI32 false, []) := by decide
theorem test_decode_read_varint_i64 : decode [0b00000110#8] = .ok (.readVarintI64 false, []) := by decide
theorem test_decode_write_varint_i64 : decode [0b00010111#8] = .ok (.writeVarintI64 true, []) := by decide
theorem test_decode_kind_get : decode [0b00001000#8] = .ok (.kindGet false, []) := by decide
theorem test_decode_kind_set : decode [0b00001001#8] = .ok (.kindSet false, []) := by decide
theorem test_decode_ordinal_get : decode [0b00001010#8] = .ok (.ordinalGet false, []) := by decide
theorem test_decode_ordinal_set : decode [0b00001011#8] = .ok (.ordinalSet false, []) := by decide
theorem test_decode_initialize_and_rest : decode [0b00011100#8, 0x55#8] = .ok (.initDetail true, [0x55#8]) := by decide
/-- R55, 2.7. -/
theorem test_decode_reserved_opcodes :
    [0x0D#8, 0x0E#8, 0x0F#8, 0x1D#8].map decodeWord = List.replicate 4 (.error .reservedOpcode) := by decide
/-- R55, 2.7. -/
theorem test_decode_reserved_bits :
    [0x20#8, 0x48#8, 0x80#8, 0xFF#8, 0x2C#8].map decodeWord = List.replicate 5 (.error .reservedBits) := by decide
theorem test_decode_nothing : decode [] = .error .noWord := by decide
/-- R51: no word matches two rows of the table. -/
theorem test_table_rows_do_not_overlap :
    opcodeTable.Pairwise fun x y => x.pattern &&& (x.mask &&& y.mask) ≠ y.pattern &&& (x.mask &&& y.mask) := by decide
/-- R69: the textual form. -/
theorem test_text_form :
    [Instr.readVarintI32 true, .readVarintI32 false, .kindSet true].map Instr.text =
      ["read_varint_i32.strict", "read_varint_i32", "kind_set"] := by decide
theorem test_table_word : decodeTableWord 8 0x09 = some (.kindSet false) ∧ decodeTableWord 8 0x109 = none := by decide
/-- The word placed by `withFetchWord` is the next command; the operands are those at reset. -/
theorem test_fetch_word_runs_next :
    responseOf (step (State.reset.withFetchWord 8 0x08)) = some ⟨.ok, 0, 0⟩ ∧
      responseOf (step (State.reset.withFetchWord 8 0x00)) = some ⟨.invalidArgument, 0, 0⟩ ∧
      responseOf (step (State.reset.withFetchWord 8 0x0D)) = some ⟨.illegalOp, 0, 0⟩ := by decide

/-! ## Varint write -/

/-- 2.1: 0xDEADBEEF gives EF FD B6 F5 0D; each offset is written once, in order (R38). -/
theorem test_write_u32 :
    seen (step (offer 0x01#8 0xDEADBEEF#64 0 [0xAA, 0xAA, 0xAA, 0xAA, 0xAA, 0xAA])) =
      some (⟨.ok, 0, 5⟩, bytes [0xEF, 0xFD, 0xB6, 0xF5, 0x0D, 0xAA], writes [0xEF, 0xFD, 0xB6, 0xF5, 0x0D]) := by decide
/-- 2.1 and 2.7: `cmd.a[63:32]` and the strict bit are ignored; 127 fits in one byte. -/
theorem test_write_u32_ignores_high_half_and_strict :
    seen (step (offer 0x11#8 0xFFFFFFFF0000007F#64 0 [0xAA])) = some (⟨.ok, 0, 1⟩, bytes [0x7F], writes [0x7F]) := by
  decide
/-- 2.2: 2^63 gives nine bytes 80 and a byte 01. -/
theorem test_write_u64 :
    seen (step (offer 0x03#8 0x8000000000000000#64 0 [0, 0, 0, 0, 0, 0, 0, 0, 0, 0])) =
      some (⟨.ok, 0, 10⟩, bytes [0x80, 0x80, 0x80, 0x80, 0x80, 0x80, 0x80, 0x80, 0x80, 0x01],
        writes [0x80, 0x80, 0x80, 0x80, 0x80, 0x80, 0x80, 0x80, 0x80, 0x01]) := by decide
/-- 2.7: 2^64 - 1 does not fit in nine bytes; nothing is written. -/
theorem test_write_u64_short :
    seen (step (offer 0x03#8 0xFFFFFFFFFFFFFFFF#64 0 [1, 2, 3, 4, 5, 6, 7, 8, 9])) =
      some (⟨.invalidArgument, 0, 0⟩, bytes [1, 2, 3, 4, 5, 6, 7, 8, 9], []) := by decide
/-- 2.5: the i32 -128. -/
theorem test_write_i32 :
    seen (step (offer 0x05#8 0xFFFFFF80#64 0 [0, 0, 0, 0, 0])) =
      some (⟨.ok, 0, 5⟩, bytes [0x80, 0xFF, 0xFF, 0xFF, 0x0F], writes [0x80, 0xFF, 0xFF, 0xFF, 0x0F]) := by decide
/-- 2.5: a sign-extended -1; the upper half is ignored. -/
theorem test_write_i32_ignores_high_half :
    seen (step (offer 0x05#8 0xFFFFFFFFFFFFFFFF#64 0 [0, 0, 0, 0, 0])) =
      some (⟨.ok, 0, 5⟩, bytes [0xFF, 0xFF, 0xFF, 0xFF, 0x0F], writes [0xFF, 0xFF, 0xFF, 0xFF, 0x0F]) := by decide
/-- 2.5: the i64 -2147483648. -/
theorem test_write_i64 :
    seen (step (offer 0x07#8 0xFFFFFFFF80000000#64 0 [0, 0, 0, 0, 0, 0, 0, 0, 0, 0])) =
      some (⟨.ok, 0, 10⟩, bytes [0x80, 0x80, 0x80, 0x80, 0xF8, 0xFF, 0xFF, 0xFF, 0xFF, 0x01],
        writes [0x80, 0x80, 0x80, 0x80, 0xF8, 0xFF, 0xFF, 0xFF, 0xFF, 0x01]) := by decide
/-- 2.7: absent buffer. -/
theorem test_write_absent : seen (step (host [] [.issue (bare 0x01#8 5 0)])) = some (⟨.invalidArgument, 0, 0⟩, [], []) := by
  decide

/-! ## Varint read -/

/-- 2.3: AC 02 FF is 300 in two bytes; the third is not read. -/
theorem test_read_u32 :
    seen (step (offer 0x00#8 0 0 [0xAC, 0x02, 0xFF])) =
      some (⟨.ok, 0x12C, 2⟩, bytes [0xAC, 0x02, 0xFF], [.read 0, .read 1]) := by decide
/-- 2.3: at the cap in strict mode. -/
theorem test_read_u32_strict_cap :
    seen (step (offer 0x10#8 0 0 [0x80, 0x80, 0x80, 0x80, 0xF0])) =
      some (⟨.truncated, 0, 0⟩, bytes [0x80, 0x80, 0x80, 0x80, 0xF0], [.read 0, .read 1, .read 2, .read 3, .read 4]) := by
  decide
/-- 2.4: 0x0123456789ABCDEF. -/
theorem test_read_u64 :
    responseOf (step (offer 0x02#8 0 0 [0xEF, 0x9B, 0xAF, 0xCD, 0xF8, 0xAC, 0xD1, 0x91, 0x01])) =
      some ⟨.ok, 0x0123456789ABCDEF#64, 9⟩ := by decide
/-- 2.4: bits [6:1] of byte 9 are dropped, in strict mode too. -/
theorem test_read_u64_drops_high_bits :
    responseOf (step (offer 0x12#8 0 0 [0xFF, 0xFF, 0xFF, 0xFF, 0xFF, 0xFF, 0xFF, 0xFF, 0xFF, 0x7F])) =
      some ⟨.ok, 0xFFFFFFFFFFFFFFFF#64, 10⟩ := by decide
/-- 2.5: the i32 -2147483648, not sign-extended. -/
theorem test_read_i32 :
    responseOf (step (offer 0x04#8 0 0 [0x80, 0x80, 0x80, 0x80, 0x08])) = some ⟨.ok, 0x80000000#64, 5⟩ := by decide
/-- 2.3: a length below the cap ends first, also in strict mode. -/
theorem test_read_i32_short_before_truncated :
    responseOf (step (offer 0x14#8 0 0 [0xFF, 0xFF, 0xFF, 0xFF])) = some ⟨.invalidArgument, 0, 0⟩ := by decide
/-- 2.5: an encoding of 2^32 - 1 is not the i64 -1. -/
theorem test_read_i64 :
    responseOf (step (offer 0x06#8 0 0 [0xFF, 0xFF, 0xFF, 0xFF, 0x0F])) = some ⟨.ok, 0xFFFFFFFF#64, 5⟩ := by decide
/-- 2.4: the cap without strict mode. -/
theorem test_read_i64_cap :
    responseOf (step (offer 0x06#8 0 0 [0x80, 0x80, 0x80, 0x80, 0x80, 0x80, 0x80, 0x80, 0x80, 0x81])) =
      some ⟨.ok, 0x8000000000000000#64, 10⟩ := by decide

/-! ## The type-detail header (2.6) -/

theorem test_kind_get : responseOf (step (offer 0x08#8 0x12345625#64 0 [])) = some ⟨.ok, 2, 0⟩ := by decide
theorem test_kind_get_unrecognized :
    responseOf (step (offer 0x18#8 0x40#64 0 [])) = some ⟨.unrecognizedKind, 4, 0⟩ := by decide
theorem test_kind_set : responseOf (step (offer 0x09#8 0x1234567A#64 2 [])) = some ⟨.ok, 0x1234562A#64, 0⟩ := by decide
theorem test_kind_set_drops_high_bits :
    responseOf (step (offer 0x09#8 0xDEADBEEFABCDEF0F#64 0xFFFFFFF1#32 [])) = some ⟨.ok, 0xABCDEF1F#64, 0⟩ := by decide
theorem test_ordinal_get : responseOf (step (offer 0x0A#8 0x12345678#64 0 [])) = some ⟨.ok, 0x123456#64, 0⟩ := by decide
theorem test_ordinal_set :
    responseOf (step (offer 0x0B#8 0x12345678#64 0xFF000001#32 [])) = some ⟨.ok, 0x178#64, 0⟩ := by decide
theorem test_ordinal_set_keeps_low_byte :
    responseOf (step (offer 0x0B#8 0x1234567A#64 0xABCDEF#32 [])) = some ⟨.ok, 0xABCDEF7A#64, 0⟩ := by decide
theorem test_initialize :
    seen (step (offer 0x1C#8 0 0 [0x25, 0x01, 0x00, 0x00, 0xFF])) =
      some (⟨.ok, 0x125#64, 4⟩, bytes [0x25, 0x01, 0x00, 0x00, 0xFF], [.read 0, .read 1, .read 2, .read 3]) := by decide
theorem test_initialize_short :
    seen (step (offer 0x0C#8 0 0 [1, 2, 3])) = some (⟨.invalidArgument, 0, 0⟩, bytes [1, 2, 3], []) := by decide
/-- 2.7: word 2C on a buffer of four bytes. -/
theorem test_illegal_op :
    seen (step (offer 0x2C#8 0 0 [1, 2, 3, 4])) = some (⟨.illegalOp, 0, 0⟩, bytes [1, 2, 3, 4], []) := by decide

/-! ## The command port -/

/-- U2, R194: a declared length beyond the real buffer. -/
theorem test_untruthful_length :
    refusal (step (host [1, 2, 3, 4] [.issue (command 0x0C#8 0 0 5)])) = some .untruthfulBuffer := by decide
/-- R191: a command offered in reset is not accepted. -/
theorem test_command_in_reset :
    step { offer 0x08#8 0 0 [] with rst := true } = .next { host [] [] with rst := true } := rfl

/-- The bytes that another agent writes land, also while the block is held in reset; the command offered then does not. -/
theorem test_other_agent_in_reset :
    (step { host [1, 2] [.issueBeside (command 0x01#8 0 0 2) [.write 101 9]] with rst := true }) =
      .next { host [1, 9] [] with rst := true } := rfl

/-! ## The hypotheses of the statements can be met -/

/-- An outcome that has a response is a next state with that response. -/
theorem next_of_response {o : Result} {r : Response} (h : responseOf o = some r) : ∃ t, o = .next t ∧ t.rsp = some r := by
  cases o with
  | next t => exact ⟨t, rfl, h⟩
  | fault f => exact nomatch f
  | refused e => cases h

/-- A check of `beginsWith` by evaluation. -/
theorem beginsWith_of_check {s : State} {bs : List Byte}
    (h : ((List.range bs.length).all fun i => bufferByte s i == bs[i]?) = true) : beginsWith s bs := by
  intro i b hi
  rw [List.all_eq_true] at h
  have hlt : i < bs.length := (List.getElem?_eq_some_iff.1 hi).1
  have := beq_iff_eq.1 (h i (List.mem_range.2 hlt))
  rw [this, hi]

/-- A check of `continuesTo` by evaluation. -/
theorem continuesTo_of_check {s : State} {n : Nat}
    (h : ((List.range n).all fun i => (bufferByte s i).any continues) = true) : continuesTo s n := by
  intro i hi
  rw [List.all_eq_true] at h
  have := h i (List.mem_range.2 hi)
  cases hb : bufferByte s i with
  | none => rw [hb] at this; cases this
  | some b => rw [hb] at this; exact ⟨b, rfl, this⟩

/-- A check of the invariant, for a state that shows no access. -/
theorem inv_of_check {s : State} (hm : Memory.wf s.mem = true) (hr : s.rsp = none) (ha : s.accesses = []) : Inv s where
  mem_wf := hm
  rsp_shape := fun r h => by rw [hr] at h; cases h
  accesses_footprint := by rw [ha]; exact ⟨rfl, Nat.zero_le _, .inl (by simp)⟩
  reset_quiet := fun _ => ⟨hr, ha⟩

/-- The bytes of the cap: `n` times 0xFF. -/
def full (n : Nat) : List Nat := List.replicate n 0xFF

theorem witness_DecodeOfEncode : (Instr.initDetail true).wellFormed = true := by decide
theorem witness_EncodeOfDecode : decodeWord 0x1C#8 = .ok (.initDetail true) := by decide
theorem witness_StepRunsDecodedCommand : let c := command 0x00#8 0 0 1
    (offer 0x00#8 0 0 [7]).pending = [.issue c] ∧ (offer 0x00#8 0 0 [7]).rst = false ∧
      decodeWord c.word = .ok (.readVarintU32 false) := by decide
theorem witness_ReservedWordIsIllegalOp : let c := command 0x0D#8 0 0 1; let c' := command 0x20#8 0 0 1
    (offer 0x0D#8 0 0 [7]).pending = [.issue c] ∧ (offer 0x0D#8 0 0 [7]).rst = false ∧
      0xD ≤ (c.word.extractLsb' 0 4).toNat ∧
      (offer 0x20#8 0 0 [7]).pending = [.issue c'] ∧ (offer 0x20#8 0 0 [7]).rst = false ∧
      c'.word.extractLsb' 5 3 ≠ 0 := by decide
theorem witness_IdleWithoutCommand : State.reset.pending = [] := rfl
theorem witness_ResetHoldsTheBlock :
    (host [] [.setRst true]).pending = [.setRst true] ∧ (host [] [.setRst false]).pending = [.setRst false] ∧
      { offer 0x08#8 0 0 [] with rst := true }.pending = [.issue (command 0x08#8 0 0 0)] ∧
      cmdReady { offer 0x08#8 0 0 [] with rst := true } = false ∧
      cmdReady { host [7] [.issueThenReset (command 0x01#8 0 0 1)] with rst := true } = false ∧
      cmdReady { host [7] [.issueBeside (command 0x01#8 0 0 1) [.write 100 9]] with rst := true } = false := by decide

/-- A reader, a reserved word, an absent buffer; then both length clauses, at a buffer that just fits and at one that is a
byte short. -/
theorem witness_AbandonedCommand :
    (∃ (s : State) (c : Command) (i : Instr), s.pending = [.issueThenReset c] ∧ s.rst = false ∧
      commandTruthful (accept c s) = true ∧ decodeWord c.word = .ok i ∧ bufferUse i ≠ .writes) ∧
    (∃ (s : State) (c : Command) (e : Reject), s.pending = [.issueThenReset c] ∧ s.rst = false ∧
      commandTruthful (accept c s) = true ∧ decodeWord c.word = .error e) ∧
    (∃ (s : State) (c : Command), s.pending = [.issueThenReset c] ∧ s.rst = false ∧
      commandTruthful (accept c s) = true ∧ decodeWord c.word = .ok (.writeVarintU32 false) ∧ c.buf.present = false) ∧
    Writers fun _ _ value op =>
      ∃ (b : Bool) (s : State) (c : Command) (s' : State) (c' : Command),
        s.pending = [.issueThenReset c] ∧ s.rst = false ∧ decodeWord c.word = .ok (op b) ∧ CanWrite (accept c s) ∧
        varintLen (value c) = c.buf.len ∧
        s'.pending = [.issueThenReset c'] ∧ s'.rst = false ∧ decodeWord c'.word = .ok (op b) ∧ CanWrite (accept c' s') ∧
        c'.buf.len + 1 = varintLen (value c') := by
  refine ⟨⟨host [7] [.issueThenReset (command 0x00#8 0 0 1)], command 0x00#8 0 0 1, _, rfl, rfl, by decide, rfl, by decide⟩,
    ⟨host [7] [.issueThenReset (command 0x0D#8 0 0 1)], command 0x0D#8 0 0 1, _, rfl, rfl, by decide, rfl⟩,
    ⟨host [7] [.issueThenReset (bare 0x01#8 5 0)], bare 0x01#8 5 0, rfl, rfl, by decide, rfl, rfl⟩,
    ⟨false, host [1, 2] [.issueThenReset (command 0x01#8 300 0 2)], command 0x01#8 300 0 2,
      host [1] [.issueThenReset (command 0x01#8 300 0 1)], command 0x01#8 300 0 1, ?_⟩,
    ⟨false, host [1, 2] [.issueThenReset (command 0x03#8 300 0 2)], command 0x03#8 300 0 2,
      host [1] [.issueThenReset (command 0x03#8 300 0 1)], command 0x03#8 300 0 1, ?_⟩,
    ⟨false, host [1, 2] [.issueThenReset (command 0x05#8 300 0 2)], command 0x05#8 300 0 2,
      host [1] [.issueThenReset (command 0x05#8 300 0 1)], command 0x05#8 300 0 1, ?_⟩,
    ⟨false, host [1, 2] [.issueThenReset (command 0x07#8 300 0 2)], command 0x07#8 300 0 2,
      host [1] [.issueThenReset (command 0x07#8 300 0 1)], command 0x07#8 300 0 1, ?_⟩⟩ <;>
    exact ⟨rfl, rfl, rfl, ⟨rfl, by decide⟩, by decide, rfl, rfl, rfl, ⟨rfl, by decide⟩, by decide⟩

/-- A write of the first byte beside a reader, and a read of the last byte beside a writer. -/
theorem witness_SharedBufferIsRefused :
    (∃ (s : State) (c : Command) (others : List Touch) (i : Instr), s.pending = [.issueBeside c others] ∧ s.rst = false ∧
      decodeWord c.word = .ok i ∧ c.buf.present = true ∧ bufferUse i ≠ .ignores ∧ Touch.write c.buf.base 9 ∈ others ∧
      c.buf.base < c.buf.base + c.buf.len) ∧
    (∃ (s : State) (c : Command) (others : List Touch) (i : Instr), s.pending = [.issueBeside c others] ∧ s.rst = false ∧
      decodeWord c.word = .ok i ∧ c.buf.present = true ∧ bufferUse i = .writes ∧ Touch.read 101 ∈ others ∧
      c.buf.base ≤ 101 ∧ 101 < c.buf.base + c.buf.len) := by
  refine ⟨⟨host [1, 2] [.issueBeside (command 0x00#8 0 0 2) [.write 100 9]], command 0x00#8 0 0 2, [.write 100 9], _,
    rfl, rfl, rfl, rfl, ?_⟩, ⟨host [1, 2] [.issueBeside (command 0x01#8 0 0 2) [.read 101]], command 0x01#8 0 0 2,
    [.read 101], _, rfl, rfl, rfl, rfl, ?_⟩⟩ <;> decide

/-- The other agent writes the byte next to the buffer of a write command. -/
theorem witness_DisjointAgentsSerialize : ∃ (s t : State) (c : Command) (others : List Touch),
    s.pending = [.issueBeside c others] ∧ s.rst = false ∧ shares c others = false ∧ Touch.write 102 9 ∈ others ∧
      runCommand (accept c { s with pending := [] }) = .next t := by
  obtain ⟨t, h, _⟩ := next_of_response (r := ⟨.ok, 0, 2⟩)
    (o := runCommand (accept (command 0x01#8 300 0 2) (host [1, 2, 3] []))) (by decide)
  exact ⟨host [1, 2, 3] [.issueBeside (command 0x01#8 300 0 2) [.write 102 9]], t, command 0x01#8 300 0 2, [.write 102 9],
    rfl, rfl, by decide, by decide, h⟩

/-- Both sides of the equivalence occur. -/
theorem witness_LaunchableStepsComplete :
    (offer 0x0C#8 0 0 [1, 2, 3, 4]).pending = [.issue (command 0x0C#8 0 0 4)] ∧
      launchable (.issue (command 0x0C#8 0 0 4)) (host [1, 2, 3, 4] []) = true ∧
      launchable (.issue (command 0x0C#8 0 0 5)) (host [1, 2, 3, 4] []) = false := by decide

theorem witness_InvariantKeptByStep : ∃ s t : State, Inv s ∧ step s = .next t ∧ t.rsp = some ⟨.ok, 0, 2⟩ := by
  obtain ⟨t, h, hr⟩ := next_of_response (r := ⟨.ok, 0, 2⟩) (o := step (offer 0x01#8 300 0 [1, 2, 3])) (by decide)
  exact ⟨_, t, inv_of_check (by decide) rfl rfl, h, hr⟩

theorem witness_RunKeepsInvariant : ∃ s t : State, Inv s ∧ Host.Core.run Sys2Proof.core 1 s = .next t := by
  obtain ⟨t, h, _⟩ := next_of_response (r := ⟨.ok, 0, 2⟩) (o := step (offer 0x01#8 300 0 [1, 2, 3])) (by decide)
  refine ⟨_, t, inv_of_check (s := offer 0x01#8 300 0 [1, 2, 3]) (by decide) rfl rfl, ?_⟩
  show (match step (offer 0x01#8 300 0 [1, 2, 3]) with
    | .next s' => Host.Core.run Sys2Proof.core 0 s'
    | .fault r => .fault r
    | .refused r => .refused r) = .next t
  rw [h]; rfl

theorem witness_OperationAnswersOnTruthfulBuffer :
    truthfulFor (.initDetail false) (holds 0 [1, 2, 3, 4]) = true ∧
      truthfulFor (.initDetail false) (declares 5 (holds 0 [1, 2, 3, 4])) = false := by decide

theorem witness_OperationFrame : (∃ t, exec (.writeVarintU32 false) (holds 300 [1, 2, 3]) = .next t) ∧
    (∃ t, exec (.initDetail false) (holds 0 [1, 2, 3, 4]) = .next t) ∧ bufferUse (.initDetail false) ≠ .writes := by
  refine ⟨?_, ?_, by decide⟩
  · obtain ⟨t, h, _⟩ := next_of_response (r := ⟨.ok, 0, 2⟩) (o := exec (.writeVarintU32 false) (holds 300 [1, 2, 3])) (by decide)
    exact ⟨t, h⟩
  · obtain ⟨t, h, _⟩ := next_of_response (r := ⟨.ok, 0x04030201#64, 4⟩)
      (o := exec (.initDetail false) (holds 0 [1, 2, 3, 4])) (by decide)
    exact ⟨t, h⟩

/-- One failure with `r` 0, one with the unknown kind number. -/
theorem witness_FailedCommandLeavesNoTrace :
    (∃ (s t : State) (c : Command) (r : Response), s.pending = [.issue c] ∧ s.rst = false ∧ step s = .next t ∧
      t.rsp = some r ∧ r.status ≠ .ok ∧ r.status ≠ .unrecognizedKind) ∧
    (∃ (s t : State) (c : Command) (r : Response), s.pending = [.issue c] ∧ s.rst = false ∧ step s = .next t ∧
      t.rsp = some r ∧ r.status ≠ .ok ∧ r.status = .unrecognizedKind) := by
  obtain ⟨t, h, hr⟩ := next_of_response (r := ⟨.invalidArgument, 0, 0⟩) (o := step (offer 0x0C#8 0 0 [1, 2, 3])) (by decide)
  obtain ⟨t', h', hr'⟩ := next_of_response (r := ⟨.unrecognizedKind, 4, 0⟩) (o := step (offer 0x08#8 0x40#64 0 [])) (by decide)
  exact ⟨⟨_, t, _, _, rfl, rfl, h, hr, by decide, by decide⟩, ⟨_, t', _, _, rfl, rfl, h', hr', by decide, by decide⟩⟩

/-- A next state and a refusal, each beside another command that agrees on what the operation reads. -/
theorem witness_UnusedOperandsHaveNoInfluence :
    (∃ t, exec (.initDetail false) (holds 0 [1, 2, 3, 4]) = .next t) ∧
      sameUse (.initDetail false) (holds 0 [1, 2, 3, 4]).cmd (command 0x0C#8 9 9 4) ∧
      exec (.initDetail false) (declares 5 (holds 0 [1, 2, 3, 4])) = .refused .untruthfulBuffer ∧
      sameUse (.initDetail false) (declares 5 (holds 0 [1, 2, 3, 4])).cmd (command 0x0C#8 9 9 5) := by
  obtain ⟨t, h, _⟩ := next_of_response (r := ⟨.ok, 0x04030201#64, 4⟩)
    (o := exec (.initDetail false) (holds 0 [1, 2, 3, 4])) (by decide)
  exact ⟨⟨t, h⟩, .inl rfl, rfl, .inl rfl⟩

/-- The same bytes at address 100 and at address 200. -/
theorem witness_ResponseDependsOnCommandAndBuffer : ∃ (s s' t : State) (c c' : Command),
    s.pending = [.issue c] ∧ s'.pending = [.issue c'] ∧ s.rst = false ∧ s'.rst = false ∧
      c' = { c with buf := { c.buf with base := c'.buf.base } } ∧ c.buf.base ≠ c'.buf.base ∧ c.buf.present = true ∧
      sameBuffer (accept c s) (accept c' s') ∧ step s = .next t := by
  obtain ⟨t, h, _⟩ := next_of_response (r := ⟨.ok, 0, 2⟩) (o := step (offer 0x01#8 300 0 [1, 2])) (by decide)
  exact ⟨_, { State.reset with mem := cells 200 (bytes [1, 2]), pending := [.issue ⟨0x01#8, 300, 0, ⟨true, 2, 200⟩⟩] }, t,
    command 0x01#8 300 0 2, ⟨0x01#8, 300, 0, ⟨true, 2, 200⟩⟩, rfl, rfl, rfl, rfl, rfl, by decide, rfl,
    by unfold sameBuffer; decide, h⟩

/-- A real buffer of 20 bytes on the narrowest port. -/
theorem witness_SaturatedLengthLosesNothing :
    Config.lenwMin ≤ 4 ∧ Config.declaredLength 4 20 = 15 ∧ ∃ t, exec (.readVarintU32 false) (holds 0 (full 20)) = .next t := by
  obtain ⟨t, h, _⟩ := next_of_response (r := ⟨.ok, 0xFFFFFFFF#64, 5⟩)
    (o := exec (.readVarintU32 false) (holds 0 (full 20))) (by decide)
  exact ⟨by decide, by decide, t, h⟩

theorem witness_AbsentBufferIsInvalidArgument :
    bufferUse (.initDetail false) ≠ .ignores ∧ (holdsNone 0 7).cmd.buf.present = false := by decide

/-- Every status of the readers, at the lengths where the conditions meet: the cap, and one byte less. -/
theorem witness_StatusMatrix_readers : Readers fun _ cap op =>
    (∃ t, exec (op false) (holdsNone 0 cap) = .next t ∧ t.rsp = some ⟨.invalidArgument, 0, 0⟩) ∧
    (∃ t, exec (op true) (holds 0 (full (cap - 1))) = .next t ∧ t.rsp = some ⟨.invalidArgument, 0, 0⟩) ∧
    (∃ t, exec (op true) (holds 0 (full cap)) = .next t ∧ t.rsp = some ⟨.truncated, 0, 0⟩) ∧
    (∃ t, exec (op false) (holds 0 [0x80, 0x00]) = .next t ∧ t.rsp = some ⟨.ok, 0, 2⟩) := by
  refine ⟨⟨?_, ?_, ?_, ?_⟩, ⟨?_, ?_, ?_, ?_⟩, ⟨?_, ?_, ?_, ?_⟩, ⟨?_, ?_, ?_, ?_⟩⟩ <;> exact next_of_response (by decide)

/-- Both statuses of the writers: absent, one byte short, and just long enough for 300. -/
theorem witness_StatusMatrix_writers : Writers fun _ _ _ op =>
    (∃ t, exec (op false) (holdsNone 300 2) = .next t ∧ t.rsp = some ⟨.invalidArgument, 0, 0⟩) ∧
    (∃ t, exec (op false) (holds 300 [1]) = .next t ∧ t.rsp = some ⟨.invalidArgument, 0, 0⟩) ∧
    (∃ t, exec (op false) (holds 300 [1, 2]) = .next t ∧ t.rsp = some ⟨.ok, 0, 2⟩) := by
  refine ⟨⟨?_, ?_, ?_⟩, ⟨?_, ?_, ?_⟩, ⟨?_, ?_, ?_⟩, ⟨?_, ?_, ?_⟩⟩ <;> exact next_of_response (by decide)

/-- Kinds 3 and 4; the three operations that cannot fail; `initialize` on none, three and four bytes. -/
theorem witness_StatusMatrix_header :
    (∃ t, exec (.kindGet false) (holdsNone 0x30 0) = .next t ∧ t.rsp = some ⟨.ok, 3, 0⟩) ∧
    (∃ t, exec (.kindGet false) (holdsNone 0x40 0) = .next t ∧ t.rsp = some ⟨.unrecognizedKind, 4, 0⟩) ∧
    (∃ t, exec (.kindSet false) (holdsNone 0xF0 0) = .next t ∧ t.rsp = some ⟨.ok, 0, 0⟩) ∧
    (∃ t, exec (.ordinalGet false) (holdsNone 0x100 0) = .next t ∧ t.rsp = some ⟨.ok, 1, 0⟩) ∧
    (∃ t, exec (.ordinalSet false) (holdsNone 0x100 0) = .next t ∧ t.rsp = some ⟨.ok, 0, 0⟩) ∧
    (∃ t, exec (.initDetail false) (holdsNone 0 4) = .next t ∧ t.rsp = some ⟨.invalidArgument, 0, 0⟩) ∧
    (∃ t, exec (.initDetail false) (holds 0 [1, 2, 3]) = .next t ∧ t.rsp = some ⟨.invalidArgument, 0, 0⟩) ∧
    (∃ t, exec (.initDetail false) (holds 0 [1, 0, 0, 0]) = .next t ∧ t.rsp = some ⟨.ok, 1, 4⟩) := by
  refine ⟨?_, ?_, ?_, ?_, ?_, ?_, ?_, ?_⟩ <;> exact next_of_response (by decide)

/-- The last clause: two states that agree on the offsets read, and differ elsewhere. For the first
two clauses: `witness_StatusMatrix_readers` and `witness_StatusMatrix_header`. -/
theorem witness_ReadFootprint : ∃ (s s' t : State) (i : Instr), bufferUse i = .reads ∧ exec i s = .next t ∧ s'.cmd = s.cmd ∧
    s'.accesses = s.accesses ∧ truthfulFor i s' = true ∧
    (∀ off, .read off ∈ t.accesses → bufferByte s' off = bufferByte s off) ∧ s.mem ≠ s'.mem := by
  refine ⟨holds 0 [7, 1], holds 0 [7, 2],
    { holds 0 [7, 1] with rsp := some ⟨.ok, 7, 1⟩, accesses := [.read 0] }, .readVarintU32 false, rfl, rfl, rfl, rfl,
    by decide, ?_, by decide⟩
  intro off h
  simp only [List.mem_singleton, Access.read.injEq] at h
  subst h
  decide

theorem witness_WriteFootprint : Writers fun _ _ _ op =>
    (∃ t r, exec (op false) (holds 300 [1, 2]) = .next t ∧ t.rsp = some r ∧ r.status = .ok) ∧
      (∃ t r, exec (op false) (holds 300 [1]) = .next t ∧ t.rsp = some r ∧ r.status ≠ .ok) := by
  obtain ⟨⟨_, ⟨t1, h1, r1⟩, u1, k1, q1⟩, ⟨_, ⟨t2, h2, r2⟩, u2, k2, q2⟩, ⟨_, ⟨t3, h3, r3⟩, u3, k3, q3⟩,
    ⟨_, ⟨t4, h4, r4⟩, u4, k4, q4⟩⟩ := witness_StatusMatrix_writers
  exact ⟨⟨⟨u1, _, k1, q1, rfl⟩, ⟨t1, _, h1, r1, by decide⟩⟩, ⟨⟨u2, _, k2, q2, rfl⟩, ⟨t2, _, h2, r2, by decide⟩⟩,
    ⟨⟨u3, _, k3, q3, rfl⟩, ⟨t3, _, h3, r3, by decide⟩⟩, ⟨⟨u4, _, k4, q4, rfl⟩, ⟨t4, _, h4, r4, by decide⟩⟩⟩

/-- One byte in a buffer of one byte, and a varint of exactly the cap. -/
theorem witness_ReadersAnswerTerminatedVarint : Readers fun _ cap _ =>
    (CanRead (holds 0 [7]) ∧ terminated (bytes [7]) = true ∧ beginsWith (holds 0 [7]) (bytes [7])) ∧
    (∃ ns : List Nat, CanRead (holds 0 ns) ∧ terminated (bytes ns) = true ∧ (bytes ns).length = cap ∧
      (bytes ns).length ≤ (holds 0 ns).cmd.buf.len ∧ beginsWith (holds 0 ns) (bytes ns)) := by
  refine ⟨⟨?_, full 4 ++ [1], ?_⟩, ⟨?_, full 9 ++ [1], ?_⟩, ⟨?_, full 4 ++ [1], ?_⟩, ⟨?_, full 9 ++ [1], ?_⟩⟩
  iterate 4
    · exact ⟨⟨rfl, by decide⟩, by decide, beginsWith_of_check (by decide)⟩
    · exact ⟨⟨rfl, by decide⟩, by decide, by decide, by decide, beginsWith_of_check (by decide)⟩

theorem witness_ReadersAtTheCap : Readers fun _ cap _ =>
    CanRead (holds 0 (full cap)) ∧ (bytes (full cap)).length = cap ∧ (∀ b ∈ bytes (full cap), continues b = true) ∧
      cap ≤ (holds 0 (full cap)).cmd.buf.len ∧ beginsWith (holds 0 (full cap)) (bytes (full cap)) := by
  refine ⟨?_, ?_, ?_, ?_⟩ <;>
    exact ⟨⟨rfl, by decide⟩, by decide, by decide, by decide, beginsWith_of_check (by decide)⟩

/-- A buffer of no bytes, and one of one byte less than the cap. -/
theorem witness_ReadersOnShortBuffer : Readers fun _ cap _ =>
    (CanRead (holds 0 []) ∧ (holds 0 []).cmd.buf.len < cap ∧ continuesTo (holds 0 []) (holds 0 []).cmd.buf.len) ∧
    (CanRead (holds 0 (full (cap - 1))) ∧ (holds 0 (full (cap - 1))).cmd.buf.len < cap ∧
      continuesTo (holds 0 (full (cap - 1))) (holds 0 (full (cap - 1))).cmd.buf.len) := by
  refine ⟨⟨?_, ?_⟩, ⟨?_, ?_⟩, ⟨?_, ?_⟩, ⟨?_, ?_⟩⟩ <;>
    exact ⟨⟨rfl, by decide⟩, by decide, continuesTo_of_check (by decide)⟩

/-- Last bytes 0x01 and 0x71 (32 bits) or 0x7F (64 bits): they differ in dropped bits only. -/
theorem witness_BitsAboveTheAccumulatorAreDropped : Readers fun w cap op => ∃ (x y : Nat) (t : State) (r : Response),
    (bytes (full (cap - 1))).length = cap - 1 ∧ (∀ z ∈ bytes (full (cap - 1)), continues z = true) ∧
      CanRead (holds 0 (full (cap - 1) ++ [x])) ∧ CanRead (holds 0 (full (cap - 1) ++ [y])) ∧
      (holds 0 (full (cap - 1) ++ [y])).cmd = (holds 0 (full (cap - 1) ++ [x])).cmd ∧
      cap ≤ (holds 0 (full (cap - 1) ++ [x])).cmd.buf.len ∧
      beginsWith (holds 0 (full (cap - 1) ++ [x])) (bytes (full (cap - 1)) ++ [BitVec.ofNat 8 x]) ∧
      beginsWith (holds 0 (full (cap - 1) ++ [y])) (bytes (full (cap - 1)) ++ [BitVec.ofNat 8 y]) ∧
      continues (BitVec.ofNat 8 x) = continues (BitVec.ofNat 8 y) ∧
      (∀ j < w - 7 * (cap - 1), (BitVec.ofNat 8 x).getLsbD j = (BitVec.ofNat 8 y).getLsbD j) ∧
      exec (op false) (holds 0 (full (cap - 1) ++ [x])) = .next t ∧ t.rsp = some r ∧ r.status = .ok ∧ x ≠ y := by
  have fin : ∀ {o : Result} {r : Response}, responseOf o = some r → r.status = .ok →
      ∃ t r, o = .next t ∧ t.rsp = some r ∧ r.status = .ok := fun h hs => by
    obtain ⟨t, h1, h2⟩ := next_of_response h
    exact ⟨t, _, h1, h2, hs⟩
  obtain ⟨t1, r1, a1, b1, c1⟩ := fin (o := exec (.readVarintU32 false) (holds 0 (full 4 ++ [0x01])))
    (r := ⟨.ok, 0x1FFFFFFF#64, 5⟩) (by decide) rfl
  obtain ⟨t2, r2, a2, b2, c2⟩ := fin (o := exec (.readVarintU64 false) (holds 0 (full 9 ++ [0x01])))
    (r := ⟨.ok, 0xFFFFFFFFFFFFFFFF#64, 10⟩) (by decide) rfl
  obtain ⟨t3, r3, a3, b3, c3⟩ := fin (o := exec (.readVarintI32 false) (holds 0 (full 4 ++ [0x01])))
    (r := ⟨.ok, 0x1FFFFFFF#64, 5⟩) (by decide) rfl
  obtain ⟨t4, r4, a4, b4, c4⟩ := fin (o := exec (.readVarintI64 false) (holds 0 (full 9 ++ [0x01])))
    (r := ⟨.ok, 0xFFFFFFFFFFFFFFFF#64, 10⟩) (by decide) rfl
  refine ⟨⟨0x01, 0x71, t1, r1, ?_⟩, ⟨0x01, 0x7F, t2, r2, ?_⟩, ⟨0x01, 0x71, t3, r3, ?_⟩, ⟨0x01, 0x7F, t4, r4, ?_⟩⟩
  · exact ⟨by decide, by decide, ⟨rfl, by decide⟩, ⟨rfl, by decide⟩, rfl, by decide, beginsWith_of_check (by decide),
      beginsWith_of_check (by decide), by decide, by decide, a1, b1, c1, by decide⟩
  · exact ⟨by decide, by decide, ⟨rfl, by decide⟩, ⟨rfl, by decide⟩, rfl, by decide, beginsWith_of_check (by decide),
      beginsWith_of_check (by decide), by decide, by decide, a2, b2, c2, by decide⟩
  · exact ⟨by decide, by decide, ⟨rfl, by decide⟩, ⟨rfl, by decide⟩, rfl, by decide, beginsWith_of_check (by decide),
      beginsWith_of_check (by decide), by decide, by decide, a3, b3, c3, by decide⟩
  · exact ⟨by decide, by decide, ⟨rfl, by decide⟩, ⟨rfl, by decide⟩, rfl, by decide, beginsWith_of_check (by decide),
      beginsWith_of_check (by decide), by decide, by decide, a4, b4, c4, by decide⟩

/-- 2.3: 01 beside 81 80 80 00. -/
theorem witness_NonCanonicalInputIsAccepted : Readers fun _ cap op => ∃ (t : State) (r : Response),
    continues 0x01#8 = false ∧ 0 + 2 + 2 ≤ cap ∧ CanRead (holds 0 [1]) ∧ CanRead (holds 0 [0x81, 0x80, 0x80, 0]) ∧
      0 + 1 ≤ (holds 0 [1]).cmd.buf.len ∧ 0 + 2 + 2 ≤ (holds 0 [0x81, 0x80, 0x80, 0]).cmd.buf.len ∧
      beginsWith (holds 0 [1]) ([] ++ [0x01#8]) ∧
      beginsWith (holds 0 [0x81, 0x80, 0x80, 0]) ([] ++ [0x01#8 ||| 0x80#8] ++ List.replicate 2 0x80#8 ++ [0x00#8]) ∧
      exec (op false) (holds 0 [1]) = .next t ∧ t.rsp = some r := by
  refine ⟨?_, ?_, ?_, ?_⟩
  · obtain ⟨t, h, hr⟩ := next_of_response (r := ⟨.ok, 1, 1⟩) (o := exec (.readVarintU32 false) (holds 0 [1])) (by decide)
    exact ⟨t, _, by decide, by decide, ⟨rfl, by decide⟩, ⟨rfl, by decide⟩, by decide, by decide,
      beginsWith_of_check (by decide), beginsWith_of_check (by decide), h, hr⟩
  · obtain ⟨t, h, hr⟩ := next_of_response (r := ⟨.ok, 1, 1⟩) (o := exec (.readVarintU64 false) (holds 0 [1])) (by decide)
    exact ⟨t, _, by decide, by decide, ⟨rfl, by decide⟩, ⟨rfl, by decide⟩, by decide, by decide,
      beginsWith_of_check (by decide), beginsWith_of_check (by decide), h, hr⟩
  · obtain ⟨t, h, hr⟩ := next_of_response (r := ⟨.ok, 1, 1⟩) (o := exec (.readVarintI32 false) (holds 0 [1])) (by decide)
    exact ⟨t, _, by decide, by decide, ⟨rfl, by decide⟩, ⟨rfl, by decide⟩, by decide, by decide,
      beginsWith_of_check (by decide), beginsWith_of_check (by decide), h, hr⟩
  · obtain ⟨t, h, hr⟩ := next_of_response (r := ⟨.ok, 1, 1⟩) (o := exec (.readVarintI64 false) (holds 0 [1])) (by decide)
    exact ⟨t, _, by decide, by decide, ⟨rfl, by decide⟩, ⟨rfl, by decide⟩, by decide, by decide,
      beginsWith_of_check (by decide), beginsWith_of_check (by decide), h, hr⟩

/-- The hypotheses of `RoundTrip`, for one pair of operations. -/
def RoundTripMet (write read : Bool → Instr) : Prop :=
  ∃ (s t : State) (c1 c2 : Command) (b1 b2 : Bool) (r : Response),
    s.rst = false ∧ s.pending = [.issue c1, .issue c2] ∧ decodeWord c1.word = .ok (write b1) ∧
      decodeWord c2.word = .ok (read b2) ∧ step s = .next t ∧ t.rsp = some r ∧ r.status = .ok ∧ c2.buf.present = true ∧
      c2.buf.base = c1.buf.base ∧ r.count.toNat ≤ c2.buf.len ∧
      ∀ off < c2.buf.len, readableAt (accept c2 t) off = true

/-- P1 steps 6 and 7: 300 is written into a buffer of five bytes and read back from its first two. -/
theorem roundTripMet_of_check {write read : Bool → Instr} {w1 w2 : Byte} (h1 : decodeWord w1 = .ok (write false))
    (h2 : decodeWord w2 = .ok (read true))
    (h : step (host [1, 2, 3, 4, 5] [.issue (command w1 300 0 5), .issue (command w2 0 0 2)]) =
      .next { host [0xAC, 0x02, 3, 4, 5] [.issue (command w2 0 0 2)] with
        cmd := command w1 300 0 5, rsp := some ⟨.ok, 0, 2⟩, accesses := writes [0xAC, 0x02] }) : RoundTripMet write read :=
  ⟨_, _, command w1 300 0 5, command w2 0 0 2, false, true, ⟨.ok, 0, 2⟩, rfl, rfl, h1, h2, h, rfl, rfl, rfl, rfl,
    Nat.le_refl 2, fun off hoff => match off, hoff with
      | 0, _ => rfl
      | 1, _ => rfl⟩

theorem witness_UnsignedRoundTrip :
    RoundTripMet .writeVarintU32 .readVarintU32 ∧ RoundTripMet .writeVarintU64 .readVarintU64 :=
  ⟨roundTripMet_of_check (w1 := 0x01#8) (w2 := 0x10#8) rfl rfl rfl,
    roundTripMet_of_check (w1 := 0x03#8) (w2 := 0x12#8) rfl rfl rfl⟩

theorem witness_SignedRoundTrip :
    RoundTripMet .writeVarintI32 .readVarintI32 ∧ RoundTripMet .writeVarintI64 .readVarintI64 ∧
      RoundTripMet .writeVarintI32 .readVarintU32 ∧ RoundTripMet .writeVarintU32 .readVarintI32 ∧
      RoundTripMet .writeVarintI64 .readVarintU64 ∧ RoundTripMet .writeVarintU64 .readVarintI64 :=
  ⟨roundTripMet_of_check (w1 := 0x05#8) (w2 := 0x14#8) rfl rfl rfl,
    roundTripMet_of_check (w1 := 0x07#8) (w2 := 0x16#8) rfl rfl rfl,
    roundTripMet_of_check (w1 := 0x05#8) (w2 := 0x10#8) rfl rfl rfl,
    roundTripMet_of_check (w1 := 0x01#8) (w2 := 0x14#8) rfl rfl rfl,
    roundTripMet_of_check (w1 := 0x07#8) (w2 := 0x12#8) rfl rfl rfl,
    roundTripMet_of_check (w1 := 0x03#8) (w2 := 0x16#8) rfl rfl rfl⟩

/-- A buffer that just fits. -/
theorem witness_WritersStoreTheEncoding : Writers fun _ _ value _ =>
    CanWrite (holds 300 [1, 2]) ∧ varintLen (value (holds 300 [1, 2]).cmd) = (holds 300 [1, 2]).cmd.buf.len := by
  refine ⟨?_, ?_, ?_, ?_⟩ <;> exact ⟨⟨rfl, by decide⟩, by decide⟩

/-- Absent; a byte short; zero in one byte; the cap. -/
theorem witness_WritersCheckLengthFirst : Writers fun _ cap value _ =>
    (holdsNone 300 2).cmd.buf.present = false ∧
    (CanWrite (holds 300 [1]) ∧ (holds 300 [1]).cmd.buf.len + 1 = varintLen (value (holds 300 [1]).cmd)) ∧
    (CanWrite (holds 0 [1]) ∧ (holds 0 [1]).cmd.buf.len = 1 ∧ value (holds 0 [1]).cmd = 0) ∧
    (CanWrite (holds 300 (full cap)) ∧ cap ≤ (holds 300 (full cap)).cmd.buf.len) := by
  refine ⟨?_, ?_, ?_, ?_⟩ <;>
    exact ⟨rfl, ⟨⟨rfl, by decide⟩, by decide⟩, ⟨⟨rfl, by decide⟩, by decide, by decide⟩, ⟨rfl, by decide⟩, by decide⟩

/-- The widest encodings: what `WriteCapIsNeverReached`, `WriteCountThresholds` and `WritersOutputIsShortest` assume. -/
theorem witness_WriteCountThresholds : Writers fun _ cap _ op =>
    ∃ t r, exec (op false) (holds 0xFFFFFFFFFFFFFFFF#64 (full cap)) = .next t ∧ t.rsp = some r ∧ r.status = .ok := by
  refine ⟨?_, ?_, ?_, ?_⟩
  · obtain ⟨t, h, hr⟩ := next_of_response (r := ⟨.ok, 0, 5⟩)
      (o := exec (.writeVarintU32 false) (holds 0xFFFFFFFFFFFFFFFF#64 (full 5))) (by decide)
    exact ⟨t, _, h, hr, rfl⟩
  · obtain ⟨t, h, hr⟩ := next_of_response (r := ⟨.ok, 0, 10⟩)
      (o := exec (.writeVarintU64 false) (holds 0xFFFFFFFFFFFFFFFF#64 (full 10))) (by decide)
    exact ⟨t, _, h, hr, rfl⟩
  · obtain ⟨t, h, hr⟩ := next_of_response (r := ⟨.ok, 0, 5⟩)
      (o := exec (.writeVarintI32 false) (holds 0xFFFFFFFFFFFFFFFF#64 (full 5))) (by decide)
    exact ⟨t, _, h, hr, rfl⟩
  · obtain ⟨t, h, hr⟩ := next_of_response (r := ⟨.ok, 0, 10⟩)
      (o := exec (.writeVarintI64 false) (holds 0xFFFFFFFFFFFFFFFF#64 (full 10))) (by decide)
    exact ⟨t, _, h, hr, rfl⟩

theorem witness_WriteCapIsNeverReached : Writers fun _ _ _ op =>
    ∃ t r, exec (op false) (holds 300 [1, 2]) = .next t ∧ t.rsp = some r ∧ r.status = .ok :=
  ⟨witness_WriteFootprint.1.1, witness_WriteFootprint.2.1.1, witness_WriteFootprint.2.2.1.1, witness_WriteFootprint.2.2.2.1⟩

/-- A value that is not 0, and 0. -/
theorem witness_WritersOutputIsShortest : Writers fun _ _ value op =>
    ((∃ t r, exec (op false) (holds 300 [1, 2]) = .next t ∧ t.rsp = some r ∧ r.status = .ok) ∧
      value (holds 300 [1, 2]).cmd ≠ 0) ∧
    (∃ t, exec (op false) (holds 0 [1]) = .next t ∧ t.rsp = some ⟨.ok, 0, 1⟩) ∧ value (holds 0 [1]).cmd = 0 :=
  ⟨⟨⟨witness_WriteFootprint.1.1, by decide⟩, next_of_response (by decide), by decide⟩,
    ⟨⟨witness_WriteFootprint.2.1.1, by decide⟩, next_of_response (by decide), by decide⟩,
    ⟨⟨witness_WriteFootprint.2.2.1.1, by decide⟩, next_of_response (by decide), by decide⟩,
    ⟨⟨witness_WriteFootprint.2.2.2.1, by decide⟩, next_of_response (by decide), by decide⟩⟩

theorem witness_WritersAgreeBelow2Pow32 : (holds 0xFFFFFFFF#64 (full 5)).cmd.a.toNat < 2 ^ 32 := by decide

/-- The lengths 5 and 4 at 32 bits, 10 and 9 at 64. -/
theorem witness_NegativeValuesTakeFullWidth :
    (CanWrite (holds 0x80000000#64 (full 5)) ∧ (holds 0x80000000#64 (full 5)).cmd.a.getLsbD 31 = true ∧
      5 ≤ (holds 0x80000000#64 (full 5)).cmd.buf.len) ∧
    (CanWrite (holds 0x80000000#64 (full 4)) ∧ (holds 0x80000000#64 (full 4)).cmd.a.getLsbD 31 = true ∧
      (holds 0x80000000#64 (full 4)).cmd.buf.len < 5) ∧
    (CanWrite (holds 0x8000000000000000#64 (full 10)) ∧ (holds 0x8000000000000000#64 (full 10)).cmd.a.getLsbD 63 = true ∧
      10 ≤ (holds 0x8000000000000000#64 (full 10)).cmd.buf.len) ∧
    (CanWrite (holds 0x8000000000000000#64 (full 9)) ∧ (holds 0x8000000000000000#64 (full 9)).cmd.a.getLsbD 63 = true ∧
      (holds 0x8000000000000000#64 (full 9)).cmd.buf.len < 10) := by
  refine ⟨?_, ?_, ?_, ?_⟩ <;> exact ⟨⟨rfl, by decide⟩, by decide, by decide⟩

/-- The i32 -1 read, and written from a sign-extended operand. -/
theorem witness_Signed32IsNeverWidened :
    (∃ t, exec (.readVarintI32 false) (holds 0 [0xFF, 0xFF, 0xFF, 0xFF, 0x0F]) = .next t ∧
      t.rsp = some ⟨.ok, 0xFFFFFFFF#64, 5⟩) ∧
    (0xFFFFFFFFFFFFFFFF#64).extractLsb' 0 32 = (holds 0xFFFFFFFF#64 (full 5)).cmd.a.extractLsb' 0 32 ∧
    (∃ t, exec (.writeVarintI32 false) (holds 0xFFFFFFFF#64 (full 5)) = .next t ∧ t.rsp = some ⟨.ok, 0, 5⟩) :=
  ⟨next_of_response (by decide), by decide, next_of_response (by decide)⟩

theorem witness_FieldsAreIndependent :
    responseOf (exec (.kindSet false) (withOperands State.reset 0x5A 3)) = some ⟨.ok, 0x3A, 0⟩ ∧
      responseOf (exec (.ordinalSet false) (withOperands State.reset 0x5A 150)) = some ⟨.ok, 0x965A, 0⟩ ∧
      responseOf (exec (.kindSet false) (withOperands State.reset 0x5A 15)) = some ⟨.ok, 0xFA, 0⟩ ∧
      responseOf (exec (.ordinalSet false) (withOperands State.reset 0x5A 0xFFFFFF#32)) = some ⟨.ok, 0xFFFFFF5A#64, 0⟩ := by
  decide

/-- V9 and P1: kind 3 and ordinal 150 in both orders, and the largest kind. -/
theorem witness_HeaderRoundTrip :
    (responseOf (exec (.kindSet false) (withOperands State.reset 0 3)) = some ⟨.ok, 0x30, 0⟩ ∧
      responseOf (exec (.ordinalSet false) (withOperands State.reset 0x30 150)) = some ⟨.ok, 0x9630, 0⟩) ∧
    (responseOf (exec (.ordinalSet false) (withOperands State.reset 0 150)) = some ⟨.ok, 0x9600, 0⟩ ∧
      responseOf (exec (.kindSet false) (withOperands State.reset 0x9600 15)) = some ⟨.ok, 0x96F0, 0⟩) ∧
    (3 : Word32).toNat < 16 ∧ (15 : Word32).toNat < 16 := by decide

/-- Four bytes, none, and three. -/
theorem witness_InitializeCopiesFourBytes :
    (CanRead (holds 0 [1, 2, 3, 4]) ∧ 4 ≤ (holds 0 [1, 2, 3, 4]).cmd.buf.len ∧
      beginsWith (holds 0 [1, 2, 3, 4]) [1#8, 2#8, 3#8, 4#8]) ∧
    (holdsNone 0 4).cmd.buf.present = false ∧
    (CanRead (holds 0 [1, 2, 3]) ∧ (holds 0 [1, 2, 3]).cmd.buf.len < 4) :=
  ⟨⟨⟨rfl, by decide⟩, by decide, beginsWith_of_check (by decide)⟩, rfl, ⟨rfl, by decide⟩, by decide⟩

theorem witness_HostWriteSetsOneByte : (host [1] [.hostWrite 100 9]).pending = [.hostWrite 100 9] := rfl

/-- Two writes to the byte below the buffer of a write command, the command accepted; and the same in reset. -/
theorem witness_OtherAgentsWritesLand : ∃ (s u u' : State) (c : Command) (others : List Touch),
    s.pending = [.issueBeside c others] ∧ s.rst = false ∧ step s = .next u ∧ u.rsp = some ⟨.ok, 0, 2⟩ ∧
      step { s with rst := true } = .next u' ∧ commandUse c = .writes ∧
      others = [.write 99 8] ++ .write 99 9 :: [.read 99] ∧ (∀ v', .write 99 v' ∉ [Touch.read 99]) ∧
      (∀ v, .write 102 v ∉ others) ∧ inBuffer c 102 = false := by
  obtain ⟨u, h, hr⟩ := next_of_response (r := ⟨.ok, 0, 2⟩) (o := step (host [1, 2, 3]
    [.issueBeside (command 0x01#8 300 0 2) [.write 99 8, .write 99 9, .read 99]])) (by decide)
  exact ⟨_, u, _, command 0x01#8 300 0 2, [.write 99 8, .write 99 9, .read 99], rfl, rfl, h, hr, rfl, rfl, rfl, by simp,
    by simp, by decide⟩

end Sys2Proof.Tests
end

/-! # Proofs of the statements about the state, the step and the frame (spec/10_state.md) -/

namespace Sys2Proof.Machine

/-! ## How a step and a command end -/

theorem cmdReady_iff {s : State} : cmdReady s = true ↔ s.rst = false := by simp [cmdReady]

theorem step_nil {s : State} (hp : s.pending = []) : step s = .next s := by rw [step, hp]

theorem step_cons {s : State} {act : HostAct} {rest : List HostAct} (hp : s.pending = act :: rest) :
    step s = perform act { s with pending := rest } := by rw [step, hp]

theorem perform_issue {s : State} (c : Command) (hr : s.rst = false) :
    perform (.issue c) s = runCommand (accept c s) := if_pos (cmdReady_iff.2 hr)

/-- A command offered out of reset is sampled and performed (R10, R12). -/
theorem step_issue {s : State} {c : Command} {rest : List HostAct} (hp : s.pending = .issue c :: rest)
    (hr : s.rst = false) : step s = runCommand (accept c { s with pending := rest }) :=
  (step_cons hp).trans (perform_issue c hr)

theorem runCommand_ok {s : State} {i : Instr} (h : decodeWord s.cmd.word = .ok i) : runCommand s = exec i s := by
  rw [runCommand, h]

theorem runCommand_error {s : State} {e : Reject} (h : decodeWord s.cmd.word = .error e) :
    runCommand s = .next (respond .illegalOp 0 0 s) := by
  rw [runCommand, h, raise_eq]

/-- Everything an accepted command can do, if it is answered; a reserved word answers and reads nothing (R55). -/
theorem runCommand_next {s t : State} (h : runCommand s = .next t) : AnswersReading s t ∨ AnswersWriting s t := by
  cases hd : decodeWord s.cmd.word with
  | ok i => rw [runCommand_ok hd] at h; exact (exec_next h).imp id And.right
  | error e =>
    rw [runCommand_error hd] at h
    exact .inl (answersReading_of_respond (by simp [Response.shape]) (Host.Outcome.next.inj h))

/-- An abandoned command leaves a block in reset; the memory is what its writes may have left (R192). -/
theorem abandon_next {s t : State} (h : abandon s = .next t) :
    ∃ as, t = { enterReset s with
      mem := abandonedMem s.freeCount s.cmd.buf.base as s.mem, freeCount := s.freeCount + 1 } := by
  unfold abandon at h
  split at h
  next u hu => exact ⟨u.accesses, (Host.Outcome.next.inj h).symm⟩
  all_goals exact absurd h (by simp)

/-! ## The invariant -/

/-- A state that shows neither response nor access meets the invariant if its memory is canonical. -/
theorem inv_of_quiet {s : State} (hm : Memory.wf s.mem = true) (hr : s.rsp = none) (ha : s.accesses = []) : Inv s where
  mem_wf := hm
  rsp_shape r h := by rw [hr] at h; exact absurd h (by simp)
  accesses_footprint := by rw [ha]; exact footprint_readsTo (k := 0) (by omega)
  reset_quiet _ := ⟨hr, ha⟩

/-- A legal response with a legal footprint, out of reset and over canonical memory, meets the invariant. -/
theorem inv_of_answer {s : State} {r : Response} (hm : Memory.wf s.mem = true) (hr : s.rsp = some r)
    (hs : r.shape = true) (ha : Access.footprint s.accesses) (hrst : s.rst = false) : Inv s where
  mem_wf := hm
  rsp_shape r' h := by rw [hr, Option.some.injEq] at h; exact h ▸ hs
  accesses_footprint := ha
  reset_quiet h := by rw [hrst] at h; exact absurd h (by simp)

theorem inv_withMem {s : State} (hi : Inv s) {m : List Host.Cell} (hm : Memory.wf m = true) : Inv { s with mem := m } :=
  { hi with mem_wf := hm }

theorem inv_withPending {s : State} (hi : Inv s) (acts : List HostAct) : Inv { s with pending := acts } := { hi with }

theorem inv_applyTouches {s : State} (hi : Inv s) (others : List Touch) : Inv (applyTouches others s) := by
  rw [applyTouches_eq]
  exact inv_withMem hi (wf_applyTouches others hi.mem_wf)

/-- An answered command keeps the invariant: its accesses are all that show, and they are one run of reads or of
writes. -/
theorem runCommand_accept_inv {s t : State} {c : Command} (hi : Inv s) (hr : s.rst = false)
    (h : runCommand (accept c s) = .next t) : Inv t := by
  rcases runCommand_next h with ⟨k, hk, st, r, n, rfl, hs⟩ | ⟨w, v, hv, -, -, -, rfl⟩
  · exact inv_of_answer hi.mem_wf rfl hs (footprint_readsTo hk) hr
  · refine inv_of_answer (wf_storeBytes hi.mem_wf _ _) rfl ?_ (footprint_writesOf hv) hr
    simp only [Response.shape, BitVec.toNat_ofNat, decide_eq_true_eq]
    omega

/-- Every act of the host keeps the invariant. -/
theorem perform_inv {act : HostAct} {s t : State} (hi : Inv s) (h : perform act s = .next t) : Inv t := by
  cases act with
  | hostWrite addr v =>
    obtain rfl := Host.Outcome.next.inj h
    exact inv_withMem hi (Memory.wf_store hi.mem_wf addr v)
  | issue c =>
    rw [perform] at h
    split at h
    next hc => exact runCommand_accept_inv hi (cmdReady_iff.1 hc) h
    next => obtain rfl := Host.Outcome.next.inj h; exact hi
  | issueBeside c others =>
    rw [perform] at h
    have hi' := inv_applyTouches hi others
    split at h
    next hc =>
      split at h
      next => exact absurd h (by simp)
      next => exact runCommand_accept_inv hi' (by rw [applyTouches_rst]; exact cmdReady_iff.1 hc) h
    next => obtain rfl := Host.Outcome.next.inj h; exact hi'
  | issueThenReset c =>
    rw [perform] at h
    split at h
    next =>
      obtain ⟨as, rfl⟩ := abandon_next h
      exact inv_of_quiet (wf_abandonedMem _ _ as hi.mem_wf) rfl rfl
    next => obtain rfl := Host.Outcome.next.inj h; exact hi
  | setRst level =>
    cases level with
    | true => obtain rfl := Host.Outcome.next.inj h; exact inv_of_quiet hi.mem_wf rfl rfl
    | false =>
      obtain rfl := Host.Outcome.next.inj h
      exact { hi with reset_quiet := fun hr => absurd hr (by simp) }

/-- Settles O15: every act of the host keeps the invariant, and an idle step changes nothing. -/
theorem invariantKeptByStep : Obligations.InvariantKeptByStep := by
  intro s t hi h
  cases hp : s.pending with
  | nil =>
    rw [step_nil hp] at h
    obtain rfl := Host.Outcome.next.inj h
    exact hi
  | cons act rest =>
    rw [step_cons hp] at h
    exact perform_inv (inv_withPending hi rest) h

/-- Settles O14. -/
theorem invariantAtReset : Obligations.InvariantAtReset := inv_of_quiet rfl rfl rfl

/-! ## Runs -/

/-- A run that ends in a state has ended its first step in one. -/
theorem run_succ_next {M : Host.Core} {k : Nat} {s t : M.State} (h : M.run (k + 1) s = .next t) :
    ∃ u, M.step s = .next u ∧ M.run k u = .next t := by
  rw [Host.Core.run] at h
  split at h
  next u hu => exact ⟨u, hu, h⟩
  all_goals exact absurd h (by simp)

/-- Settles O16, by induction on the length of the run. -/
theorem runKeepsInvariant : Obligations.RunKeepsInvariant := by
  intro k
  induction k with
  | zero =>
    intro s t hi h
    obtain rfl := Host.Outcome.next.inj h
    exact ⟨hi, trivial⟩
  | succ k ih =>
    intro s t hi h
    obtain ⟨u, hu, hrun⟩ := run_succ_next (M := core) h
    obtain ⟨ht, hsafe⟩ := ih u t (invariantKeptByStep s u hi hu) hrun
    exact ⟨ht, u, hu, hsafe⟩

/-! ## The frame of an operation -/

/-- Settles O18: an answer either reads, and leaves memory, or stores an encoding that fits the buffer. -/
theorem operationFrame : Obligations.OperationFrame := by
  intro i s t h
  rcases exec_next h with ⟨k, -, st, r, n, rfl, -⟩ | ⟨hi, w, v, -, hlen, -, hp, rfl⟩
  · exact ⟨rfl, rfl, fun _ => rfl, fun _ _ => rfl⟩
  · refine ⟨rfl, rfl, fun hn => absurd hi hn, fun addr ha => ?_⟩
    have hout : ¬ (s.cmd.buf.base ≤ addr ∧ addr < s.cmd.buf.base + varintLen v) := by
      rw [hp] at ha
      simp only [Bool.true_eq_false, or_false] at ha
      omega
    rw [respond_mem, byteAt_storeBytes, encoding_length, if_neg hout]

/-! ## One step without and with a command -/

/-- Settles O5. -/
theorem stepRunsDecodedCommand : Obligations.StepRunsDecodedCommand := by
  intro s c rest i hp hr hd
  exact (step_issue hp hr).trans (runCommand_ok (s := accept c { s with pending := rest }) hd)

/-- Settles O7. -/
theorem idleWithoutCommand : Obligations.IdleWithoutCommand := fun _ hp => step_nil hp

/-- Settles O9. -/
theorem resetLeavesBlockReady : Obligations.ResetLeavesBlockReady := ⟨rfl, rfl, rfl, rfl, rfl⟩

end Sys2Proof.Machine

/-! # A response depends on the command and the buffer's bytes alone (R11, R13, R190) -/

namespace Sys2Proof.Machine

open Sys2Proof.Claims

/-! ## An operation answers only on a truthful buffer -/

section buffer
variable {s : State} (go : State → Result)

theorem withReadBuffer_absent (hp : s.cmd.buf.present = false) :
    withReadBuffer s go = .next (respond .invalidArgument 0 0 s) := by simp [withReadBuffer, hp]

theorem withReadBuffer_truthful (hp : s.cmd.buf.present = true) (ht : truthfulRead s = true) :
    withReadBuffer s go = go s := by simp [withReadBuffer, hp, ht]

theorem withWriteBuffer_absent (hp : s.cmd.buf.present = false) :
    withWriteBuffer s go = .next (respond .invalidArgument 0 0 s) := by simp [withWriteBuffer, hp]

theorem withWriteBuffer_truthful (hp : s.cmd.buf.present = true) (ht : truthfulWrite s = true) :
    withWriteBuffer s go = go s := by simp [withWriteBuffer, hp, ht]

variable {go} {t : State}

theorem truthful_of_withReadBuffer (h : withReadBuffer s go = .next t) :
    (!s.cmd.buf.present || truthfulRead s) = true := by
  cases hp : s.cmd.buf.present <;> cases ht : truthfulRead s <;> simp [withReadBuffer, hp, ht] at h ⊢

theorem truthful_of_withWriteBuffer (h : withWriteBuffer s go = .next t) :
    (!s.cmd.buf.present || truthfulWrite s) = true := by
  cases hp : s.cmd.buf.present <;> cases ht : truthfulWrite s <;> simp [withWriteBuffer, hp, ht] at h ⊢
end buffer

theorem truthful_of_varintRead {w cap : Nat} {strict : Bool} {s t : State} (h : varintRead w cap strict s = .next t) :
    (!s.cmd.buf.present || truthfulRead s) = true := truthful_of_withReadBuffer h

theorem truthful_of_initDetail {strict : Bool} {s t : State} (h : execInitDetail strict s = .next t) :
    (!s.cmd.buf.present || truthfulRead s) = true := truthful_of_withReadBuffer h

theorem truthful_of_varintWrite {w cap : Nat} {v : BitVec w} {s t : State} (h : varintWrite cap v s = .next t) :
    (!s.cmd.buf.present || truthfulWrite s) = true := truthful_of_withWriteBuffer h

/-- The launch premise of U2 is necessary: an operation that answers had a truthful buffer (R194). -/
theorem truthfulFor_of_exec {i : Instr} {s t : State} (h : exec i s = .next t) : truthfulFor i s = true := by
  cases i with
  | readVarintU32 _ | readVarintU64 _ | readVarintI32 _ | readVarintI64 _ => exact truthful_of_varintRead h
  | writeVarintU32 _ | writeVarintU64 _ | writeVarintI32 _ | writeVarintI64 _ => exact truthful_of_varintWrite h
  | initDetail b => exact truthful_of_initDetail (strict := b) h
  | kindGet _ | kindSet _ | ordinalGet _ | ordinalSet _ => rfl

/-- A truthful buffer stays one in a state that allows every declared access that this one allows. -/
theorem truthfulFor_mono {i : Instr} {s s' : State} (hp : s'.cmd.buf.present = s.cmd.buf.present)
    (hlen : s'.cmd.buf.len ≤ s.cmd.buf.len)
    (hr : s.cmd.buf.present = true → ∀ off < s'.cmd.buf.len, readableAt s' off = readableAt s off)
    (hw : s.cmd.buf.present = true → ∀ off < s'.cmd.buf.len, writableAt s' off = writableAt s off)
    (h : truthfulFor i s = true) : truthfulFor i s' = true := by
  unfold truthfulFor at *
  cases hpr : s.cmd.buf.present with
  | false => cases hu : bufferUse i <;> simp [hp, hpr]
  | true =>
    cases hu : bufferUse i with
    | ignores => rfl
    | reads =>
      simp only [hu, hp, hpr, Bool.not_true, Bool.false_or, truthfulRead_iff] at h ⊢
      exact fun off ho => (hr hpr off ho).trans (h off (by omega))
    | writes =>
      simp only [hu, hp, hpr, Bool.not_true, Bool.false_or, truthfulWrite_iff] at h ⊢
      exact fun off ho => (hw hpr off ho).trans (h off (by omega))

/-! ## Two states that a command cannot tell apart -/

/-- The data operands agree, the buffers hold the same bytes wherever both lengths reach, and no length that an operation
looks at (10 at most, R13) tells the declared lengths apart. -/
structure Indistinct (s s' : State) : Prop where
  operandA : s'.cmd.a = s.cmd.a
  operandB : s'.cmd.b = s.cmd.b
  present : s'.cmd.buf.present = s.cmd.buf.present
  lengths : min s'.cmd.buf.len 10 = min s.cmd.buf.len 10
  bytes : s.cmd.buf.present = true → ∀ off < s.cmd.buf.len, off < s'.cmd.buf.len → bufferByte s' off = bufferByte s off

/-- The state after an answer: the response, the accesses, and the bytes stored from the buffer's start on. -/
def State.after (s : State) (r : Response) (as : List Access) (bs : List Byte) : State :=
  { s with mem := storeBytes s.mem s.cmd.buf.base bs, rsp := some r, accesses := s.accesses ++ as }

/-- The buffer after an answer: the stored bytes first, the old ones behind them. -/
theorem bufferByte_after (s : State) (r : Response) (as : List Access) (bs : List Byte) (off : Nat) :
    bufferByte (s.after r as bs) off = if off < bs.length then bs[off]? else bufferByte s off := by
  change Memory.byteAt (storeBytes s.mem s.cmd.buf.base bs) (s.cmd.buf.base + off) = _
  rw [byteAt_storeBytes, Nat.add_sub_cancel_left]
  simp only [Nat.le_add_right, true_and, Nat.add_lt_add_iff_left]
  rfl

/-- Both outcomes are the same answer, each given from its own state. -/
def SameAnswer (s s' : State) (o o' : Result) : Prop :=
  ∃ r as bs, o = .next (s.after r as bs) ∧ o' = .next (s'.after r as bs)

/-- Both outcomes are the same answer and leave memory. -/
theorem sameAnswer_of_respond {s s' : State} (st : Status) (r : Word64) (n : Nat) (as : List Access) :
    SameAnswer s s' (.next (respond st r n (s.withAccesses as))) (.next (respond st r n (s'.withAccesses as))) :=
  ⟨⟨st, r, BitVec.ofNat 8 n⟩, as, [], rfl, rfl⟩

theorem State.withAccesses_nil (s : State) : s.withAccesses [] = s := by simp [State.withAccesses]

theorem State.withAccesses_readsFrom_zero (s : State) (i : Nat) : s.withAccesses (readsFrom i 0) = s :=
  s.withAccesses_nil

theorem sameAnswer_of_respond_only {s s' : State} (st : Status) (r : Word64) (n : Nat) :
    SameAnswer s s' (.next (respond st r n s)) (.next (respond st r n s')) := by
  simpa only [State.withAccesses_nil] using sameAnswer_of_respond (s := s) (s' := s') st r n []

/-- The read loop sees nothing but the length and the bytes (R80). -/
theorem readLoop_sameAnswer (w : Nat) (strict : Bool) {left i : Nat} (acc : BitVec w) {s s' : State}
    (hcap : i + left ≤ 10) (hlen : min s'.cmd.buf.len 10 = min s.cmd.buf.len 10)
    (hr : ∀ off < s.cmd.buf.len, readableAt s off = true) (hr' : ∀ off < s'.cmd.buf.len, readableAt s' off = true)
    (hb : ∀ off < s.cmd.buf.len, off < s'.cmd.buf.len → bufferByte s' off = bufferByte s off) :
    ∃ k st r n, readLoop w strict left i acc s = .next (respond st r n (s.withAccesses (readsFrom i k))) ∧
      readLoop w strict left i acc s' = .next (respond st r n (s'.withAccesses (readsFrom i k))) := by
  induction left generalizing i acc s s' with
  | zero =>
    cases strict with
    | false =>
      refine ⟨0, .ok, zext64 acc, i, ?_⟩
      simp only [State.withAccesses_readsFrom_zero]
      exact ⟨rfl, rfl⟩
    | true =>
      refine ⟨0, .truncated, 0, 0, ?_⟩
      simp only [State.withAccesses_readsFrom_zero]
      exact ⟨rfl, rfl⟩
  | succ left ih =>
    by_cases hi : s.cmd.buf.len ≤ i
    · have hi' : s'.cmd.buf.len ≤ i := by omega
      exact ⟨0, .invalidArgument, 0, 0, by rw [State.withAccesses_readsFrom_zero, readLoop, if_pos hi, raise_eq],
        by rw [State.withAccesses_readsFrom_zero, readLoop, if_pos hi', raise_eq]⟩
    · have hi' : ¬ s'.cmd.buf.len ≤ i := by omega
      obtain ⟨b, hbi⟩ := bufferByte_of_readable (hr i (by omega))
      have hbi' : bufferByte s' i = some b := (hb i (by omega) (by omega)).trans hbi
      rw [readLoop, if_neg hi, memRead_of_readable (hr i (by omega)) hbi, readLoop, if_neg hi',
        memRead_of_readable (hr' i (by omega)) hbi']
      by_cases hc : continues b = true
      · obtain ⟨k, st, r, n, h, h'⟩ := ih (i := i + 1) (s := s.withAccesses [.read i])
          (s' := s'.withAccesses [.read i]) (acc ||| placeChunk w i b) (by omega) hlen hr hr' hb
        refine ⟨k + 1, st, r, n, ?_, ?_⟩
        · simpa [hc, State.withAccesses, readsFrom_succ] using h
        · simpa [hc, State.withAccesses, readsFrom_succ] using h'
      · exact ⟨1, .ok, zext64 (acc ||| placeChunk w i b), i + 1, if_neg hc, if_neg hc⟩

/-- An absent buffer is the same answer everywhere, before any access (R87, R105, R138). -/
theorem withReadBuffer_sameAnswer {s s' : State} {go : State → Result} (hs : Indistinct s s')
    (ht : (!s.cmd.buf.present || truthfulRead s) = true) (ht' : (!s'.cmd.buf.present || truthfulRead s') = true)
    (hgo : s.cmd.buf.present = true → truthfulRead s = true → truthfulRead s' = true → SameAnswer s s' (go s) (go s')) :
    SameAnswer s s' (withReadBuffer s go) (withReadBuffer s' go) := by
  cases hp : s.cmd.buf.present with
  | false =>
    rw [withReadBuffer_absent go hp, withReadBuffer_absent go (hs.present.trans hp)]
    exact sameAnswer_of_respond_only _ _ _
  | true =>
    simp only [hs.present, hp, Bool.not_true, Bool.false_or] at ht ht'
    rw [withReadBuffer_truthful go hp ht, withReadBuffer_truthful go (hs.present.trans hp) ht']
    exact hgo hp ht ht'

theorem withWriteBuffer_sameAnswer {s s' : State} {go : State → Result} (hs : Indistinct s s')
    (ht : (!s.cmd.buf.present || truthfulWrite s) = true) (ht' : (!s'.cmd.buf.present || truthfulWrite s') = true)
    (hgo : truthfulWrite s = true → truthfulWrite s' = true → SameAnswer s s' (go s) (go s')) :
    SameAnswer s s' (withWriteBuffer s go) (withWriteBuffer s' go) := by
  cases hp : s.cmd.buf.present with
  | false =>
    rw [withWriteBuffer_absent go hp, withWriteBuffer_absent go (hs.present.trans hp)]
    exact sameAnswer_of_respond_only _ _ _
  | true =>
    simp only [hs.present, hp, Bool.not_true, Bool.false_or] at ht ht'
    rw [withWriteBuffer_truthful go hp ht, withWriteBuffer_truthful go (hs.present.trans hp) ht']
    exact hgo ht ht'

theorem varintRead_sameAnswer {w cap : Nat} {strict : Bool} {s s' : State} (hcap : cap ≤ 10) (hs : Indistinct s s')
    (ht : (!s.cmd.buf.present || truthfulRead s) = true) (ht' : (!s'.cmd.buf.present || truthfulRead s') = true) :
    SameAnswer s s' (varintRead w cap strict s) (varintRead w cap strict s') := by
  refine withReadBuffer_sameAnswer hs ht ht' fun hp hr hr' => ?_
  obtain ⟨k, st, r, n, h, h'⟩ := readLoop_sameAnswer w strict (i := 0) (left := cap) 0 (by omega) hs.lengths
    (truthfulRead_iff.1 hr) (truthfulRead_iff.1 hr') (hs.bytes hp)
  rw [h, h']
  exact sameAnswer_of_respond st r n _

theorem initDetail_sameAnswer (strict : Bool) {s s' : State} (hs : Indistinct s s')
    (ht : (!s.cmd.buf.present || truthfulRead s) = true) (ht' : (!s'.cmd.buf.present || truthfulRead s') = true) :
    SameAnswer s s' (execInitDetail strict s) (execInitDetail strict s') := by
  have hlen := hs.lengths
  refine withReadBuffer_sameAnswer hs ht ht' fun hp hr hr' => ?_
  by_cases h4 : s.cmd.buf.len < 4
  · have h4' : s'.cmd.buf.len < 4 := by omega
    simpa [lengthStatus, h4, h4'] using sameAnswer_of_respond_only .invalidArgument 0 0
  · obtain ⟨bs, hl, hb⟩ := exists_bytes 4 (s := s) fun off ho => truthfulRead_iff.1 hr off (by omega)
    match bs, hl with
    | [b0, b1, b2, b3], _ =>
      have hb' : beginsWith s' [b0, b1, b2, b3] := fun j b hj => by
        have hj4 : j < 4 := (List.getElem?_eq_some_iff.1 hj).1
        exact (hs.bytes hp j (by omega) (by omega)).trans (hb j b hj)
      have h := initDetail_ok (strict := strict) hp hr (by omega) hb
      have h' := initDetail_ok (strict := strict) (hs.present.trans hp) hr' (by omega) hb'
      rw [execInitDetail, withReadBuffer_truthful _ hp hr] at h
      rw [execInitDetail, withReadBuffer_truthful _ (hs.present.trans hp) hr'] at h'
      rw [h, h']
      exact sameAnswer_of_respond .ok _ 4 _

theorem varintWrite_sameAnswer {w cap : Nat} (v : BitVec w) {s s' : State} (hw : w ≤ 7 * cap) (hc : 1 ≤ cap)
    (hcap : cap ≤ 10) (hs : Indistinct s s') (ht : (!s.cmd.buf.present || truthfulWrite s) = true)
    (ht' : (!s'.cmd.buf.present || truthfulWrite s') = true) :
    SameAnswer s s' (varintWrite cap v s) (varintWrite cap v s') := by
  have hlen := hs.lengths
  have hv := varintLen_le_cap v hw hc
  refine withWriteBuffer_sameAnswer hs ht ht' fun hwr hwr' => ?_
  by_cases hl : s.cmd.buf.len < varintLen v
  · have hl' : s'.cmd.buf.len < varintLen v := by omega
    simpa [lengthStatus, hl, hl'] using sameAnswer_of_respond_only .invalidArgument 0 0
  · have hl' : ¬ s'.cmd.buf.len < varintLen v := by omega
    simp only [lengthStatus, hl, hl', if_false]
    rw [writeLoop_eq hv (by omega) (truthfulWrite_iff.1 hwr), writeLoop_eq hv (by omega) (truthfulWrite_iff.1 hwr')]
    exact ⟨⟨.ok, 0, BitVec.ofNat 8 (0 + varintLen v)⟩, writesFrom 0 (encoding v), encoding v, rfl, rfl⟩

theorem execKindGet_eq (strict : Bool) (s : State) :
    execKindGet strict s = .next (respond (kindStatus (kindField (operandLow s.cmd)))
      (zext64 (kindField (operandLow s.cmd))) 0 s) := by
  unfold execKindGet
  split
  next h => rw [h, returnOk_eq]
  next => rw [raise_eq]

/-- An operation gives the same answer, refusals apart, in two states that it cannot tell apart. -/
theorem exec_sameAnswer {i : Instr} {s s' : State} (hs : Indistinct s s') (ht : truthfulFor i s = true)
    (ht' : truthfulFor i s' = true) : SameAnswer s s' (exec i s) (exec i s') := by
  have hlow : operandLow s'.cmd = operandLow s.cmd := by rw [operandLow, operandLow, hs.operandA]
  have hfull : operandFull s'.cmd = operandFull s.cmd := hs.operandA
  have hkind : operandKind s'.cmd = operandKind s.cmd := by rw [operandKind, operandKind, hs.operandB]
  have hord : operandOrdinal s'.cmd = operandOrdinal s.cmd := by rw [operandOrdinal, operandOrdinal, hs.operandB]
  cases i with
  | readVarintU32 b | readVarintU64 b | readVarintI32 b | readVarintI64 b =>
    exact varintRead_sameAnswer (by norm_num) hs ht ht'
  | writeVarintU32 b | writeVarintI32 b =>
    have h := varintWrite_sameAnswer (cap := 5) (operandLow s.cmd) (by norm_num) (by norm_num) (by norm_num) hs ht ht'
    simpa only [exec, execWriteVarintU32, execWriteVarintI32, asUnsigned, hlow] using h
  | writeVarintU64 b | writeVarintI64 b =>
    have h := varintWrite_sameAnswer (cap := 10) (operandFull s.cmd) (by norm_num) (by norm_num) (by norm_num) hs ht ht'
    simpa only [exec, execWriteVarintU64, execWriteVarintI64, asUnsigned, hfull] using h
  | kindGet b =>
    simp only [exec, execKindGet_eq, hlow]
    exact sameAnswer_of_respond_only _ _ _
  | kindSet b =>
    simp only [exec, execKindSet, returnOk_eq, hlow, hkind]
    exact sameAnswer_of_respond_only _ _ _
  | ordinalGet b =>
    simp only [exec, execOrdinalGet, returnOk_eq, hlow]
    exact sameAnswer_of_respond_only _ _ _
  | ordinalSet b =>
    simp only [exec, execOrdinalSet, returnOk_eq, hlow, hord]
    exact sameAnswer_of_respond_only _ _ _
  | initDetail b => exact initDetail_sameAnswer b hs ht ht'

/-! ## The two statements -/

section sameBuffer
variable {s s' : State} (hc : s'.cmd = { s.cmd with buf := { s.cmd.buf with base := s'.cmd.buf.base } })
  (hb : s.cmd.buf.present = true → sameBuffer s s')
include hc hb

/-- The same command on buffers of equal bytes, which may lie at two addresses (R30), is not told apart. -/
theorem indistinct_of_sameBuffer : Indistinct s s' where
  operandA := congrArg (·.a) hc
  operandB := congrArg (·.b) hc
  present := congrArg (·.buf.present) hc
  lengths := congrArg (min ·.buf.len 10) hc
  bytes hp off ho _ := (hb hp off ho).1

theorem truthfulFor_of_sameBuffer {i : Instr} (h : truthfulFor i s = true) : truthfulFor i s' = true := by
  have hlen : s'.cmd.buf.len = s.cmd.buf.len := congrArg (·.buf.len) hc
  exact truthfulFor_mono (congrArg (·.buf.present) hc) (Nat.le_of_eq hlen)
    (fun hp off ho => (hb hp off (hlen ▸ ho)).2.1) (fun hp off ho => (hb hp off (hlen ▸ ho)).2.2) h

/-- If the command is answered on the one buffer, it is answered on the other, in the same way (R11, R190). -/
theorem runCommand_sameBuffer {t : State} (h : runCommand s = .next t) :
    SameAnswer s s' (runCommand s) (runCommand s') := by
  have hw : s'.cmd.word = s.cmd.word := congrArg (·.word) hc
  cases hd : decodeWord s.cmd.word with
  | ok i =>
    rw [runCommand_ok hd] at h ⊢
    rw [runCommand_ok (i := i) (by rw [hw, hd])]
    have ht := truthfulFor_of_exec h
    exact exec_sameAnswer (indistinct_of_sameBuffer hc hb) ht (truthfulFor_of_sameBuffer hc hb ht)
  | error e =>
    rw [runCommand_error hd, runCommand_error (e := e) (by rw [hw, hd])]
    exact sameAnswer_of_respond_only _ _ _
end sameBuffer

/-- Settles O22: the two accepted commands are not told apart, so both give one answer, each over its own buffer. -/
theorem responseDependsOnCommandAndBuffer : Obligations.ResponseDependsOnCommandAndBuffer := by
  intro s s' t c c' rest rest' hp hp' hr hr' hc hb h
  rw [step_issue hp hr] at h
  obtain ⟨r, as, bs, he, he'⟩ := runCommand_sameBuffer (s := accept c { s with pending := rest })
    (s' := accept c' { s' with pending := rest' }) hc hb h
  rw [he] at h
  obtain rfl := Host.Outcome.next.inj h
  refine ⟨_, (step_issue hp' hr').trans he', rfl, rfl, fun hpr off ho => ?_⟩
  rw [bufferByte_after, bufferByte_after]
  split
  next => rfl
  next => exact (hb hpr off ho).1

theorem declaredLength_le (lenw real : Nat) : Config.declaredLength lenw real ≤ real := Nat.min_le_left _ _

/-- A port of at least 4 bits tells apart every length that an operation looks at (R13). -/
theorem min_declaredLength {lenw : Nat} (h : Config.lenwMin ≤ lenw) (real : Nat) :
    min (Config.declaredLength lenw real) 10 = min real 10 := by
  have h16 : 2 ^ 4 ≤ 2 ^ lenw := Nat.pow_le_pow_right (by omega) h
  rw [Config.declaredLength]
  omega

/-- Settles O23: the saturated length is not told from the real one, and the shorter buffer is as truthful. -/
theorem saturatedLengthLosesNothing : Obligations.SaturatedLengthLosesNothing := by
  intro i s t lenw hw h
  have hs : Indistinct s { s with
      cmd := { s.cmd with buf := { s.cmd.buf with len := Config.declaredLength lenw s.cmd.buf.len } } } :=
    ⟨rfl, rfl, rfl, min_declaredLength hw _, fun _ _ _ _ => rfl⟩
  have ht := truthfulFor_of_exec h
  obtain ⟨r, as, bs, he, he'⟩ := exec_sameAnswer hs ht
    (truthfulFor_mono (s := s) rfl (declaredLength_le lenw s.cmd.buf.len) (fun _ _ _ => rfl) (fun _ _ _ => rfl) ht)
  rw [he] at h
  obtain rfl := Host.Outcome.next.inj h
  exact ⟨_, he', rfl, rfl, rfl⟩

end Sys2Proof.Machine

/-! # Memory: what the host, another agent and a command do to it, and what they leave (spec/20_memory.md) -/

namespace Sys2Proof.Machine

open Sys2Proof.Claims

/-! ## The four readers and the four writers as one -/

/-- What is proved of the shared read operation at a cap of at most ten holds of all four readers (R81, R83, R121,
R123). -/
theorem readers_of {P : Nat → Nat → Op → Prop}
    (h : ∀ w cap op, cap ≤ 10 → (∀ b s, exec (op b) s = varintRead w cap b s) → P w cap op) : Readers P :=
  ⟨h 32 5 _ (by norm_num) fun _ _ => rfl, h 64 10 _ (by norm_num) fun _ _ => rfl,
    h 32 5 _ (by norm_num) fun _ _ => rfl, h 64 10 _ (by norm_num) fun _ _ => rfl⟩

/-- The same for the shared write operation, at a cap that suffices for its width (R101, R102, R104, R122, R124). -/
theorem writers_of {P : (w : Nat) → Nat → (Command → BitVec w) → Op → Prop}
    (h : ∀ w cap (value : Command → BitVec w) op, w ≤ 7 * cap → 1 ≤ cap → cap ≤ 10 →
      (∀ b s, exec (op b) s = varintWrite cap (value s.cmd) s) → P w cap value op) : Writers P :=
  ⟨h 32 5 _ _ (by norm_num) (by norm_num) (by norm_num) fun _ _ => rfl,
    h 64 10 _ _ (by norm_num) (by norm_num) (by norm_num) fun _ _ => rfl,
    h 32 5 _ _ (by norm_num) (by norm_num) (by norm_num) fun _ _ => rfl,
    h 64 10 _ _ (by norm_num) (by norm_num) (by norm_num) fun _ _ => rfl⟩

/-! ## What a command reads, by outcome (R37) -/

/-- One round of the read loop over a readable byte (R80, R84). -/
theorem readLoop_succ_of_readable {w : Nat} {strict : Bool} {left i : Nat} {acc : BitVec w} {s : State} {b : Byte}
    (hi : i < s.cmd.buf.len) (hr : readableAt s i = true) (hb : bufferByte s i = some b) :
    readLoop w strict (left + 1) i acc s =
      if continues b then readLoop w strict left (i + 1) (acc ||| placeChunk w i b) (s.withAccesses [.read i])
      else .next (respond .ok (zext64 (acc ||| placeChunk w i b)) (i + 1) (s.withAccesses [.read i])) := by
  rw [readLoop, if_neg (Nat.not_le.2 hi), memRead_of_readable hr hb]
  rfl

/-- A read loop inside the declared length reads no offset at or above it, and a state that agrees with this one on the
offsets read gives the same answer (R37). -/
theorem readLoop_footprint {w : Nat} {strict : Bool} {left i : Nat} {acc : BitVec w} {s t : State}
    (hi : i ≤ s.cmd.buf.len) (h : readLoop w strict left i acc s = .next t) :
    ∃ k st r n, t = respond st r n (s.withAccesses (readsFrom i k)) ∧ i + k ≤ s.cmd.buf.len ∧
      ∀ s' : State, s'.cmd = s.cmd → (∀ off < s.cmd.buf.len, readableAt s' off = true) →
        (∀ off, i ≤ off → off < i + k → bufferByte s' off = bufferByte s off) →
        readLoop w strict left i acc s' = .next (respond st r n (s'.withAccesses (readsFrom i k))) := by
  induction left generalizing i acc s with
  | zero =>
    cases strict with
    | false =>
      refine ⟨0, .ok, zext64 acc, i, ?_, hi, fun s' _ _ _ => ?_⟩ <;> rw [State.withAccesses_readsFrom_zero]
      · exact (Host.Outcome.next.inj h).symm
      · rfl
    | true =>
      refine ⟨0, .truncated, 0, 0, ?_, hi, fun s' _ _ _ => ?_⟩ <;> rw [State.withAccesses_readsFrom_zero]
      · exact (Host.Outcome.next.inj h).symm
      · rfl
  | succ left ih =>
    rw [readLoop] at h
    split at h
    next hlen =>
      refine ⟨0, .invalidArgument, 0, 0, ?_, hi, fun s' hc _ _ => ?_⟩ <;> rw [State.withAccesses_readsFrom_zero]
      · exact (Host.Outcome.next.inj h).symm
      · rw [readLoop, if_pos (hc ▸ hlen), raise_eq]
    next hlen =>
      have hlt : i < s.cmd.buf.len := by omega
      split at h
      next => exact absurd h (by simp)
      next b s1 hm =>
        obtain ⟨-, hb, rfl⟩ := memRead_some hm
        split at h
        next hcont =>
          obtain ⟨k, st, r, n, rfl, hk, hsame⟩ := ih (s := s.withAccesses [.read i]) hlt h
          have hk' : i + (k + 1) ≤ s.cmd.buf.len := by simp only at hk; omega
          refine ⟨k + 1, st, r, n, by simp [State.withAccesses, readsFrom_succ], hk', fun s' hc hr hbs => ?_⟩
          rw [readLoop_succ_of_readable (hc ▸ hlt) (hr i hlt) ((hbs i (by omega) (by omega)).trans hb), if_pos hcont,
            hsame (s'.withAccesses [.read i]) hc hr fun off h1 h2 => hbs off (by omega) (by omega)]
          simp [State.withAccesses, readsFrom_succ]
        next hcont =>
          refine ⟨1, .ok, _, i + 1, (Host.Outcome.next.inj h).symm, hlt, fun s' hc hr hbs => ?_⟩
          rw [readLoop_succ_of_readable (hc ▸ hlt) (hr i hlt) ((hbs i (by omega) (by omega)).trans hb), if_neg hcont]
          rfl

/-- The number of offsets read is fixed by the accesses. -/
theorem readsFrom_injective {i k k' : Nat} (h : readsFrom i k = readsFrom i k') : k = k' := by
  simpa using congrArg List.length h

/-- How many offsets a reader has read when it answers, by outcome (R37). -/
theorem varintRead_reads {w cap : Nat} {strict : Bool} {s t : State} (h : varintRead w cap strict s = .next t) :
    ∃ k ≤ cap, k ≤ s.cmd.buf.len ∧ ∃ st r n, t = respond st r n (s.withAccesses (readsTo k)) ∧
      ((st = .ok ∧ n = k) ∨ (st = .invalidArgument ∧ k = if s.cmd.buf.present then s.cmd.buf.len else 0) ∨
        (st = .truncated ∧ k = cap)) := by
  cases hp : s.cmd.buf.present with
  | false =>
    rw [varintRead, withReadBuffer_absent _ hp] at h
    refine ⟨0, by omega, by omega, .invalidArgument, 0, 0, ?_, .inr (.inl ⟨rfl, rfl⟩)⟩
    rw [readsTo_eq, State.withAccesses_readsFrom_zero]
    exact (Host.Outcome.next.inj h).symm
  | true =>
    have ht : truthfulRead s = true := by simpa [hp] using truthful_of_varintRead h
    rw [varintRead, withReadBuffer_truthful _ hp ht] at h
    obtain ⟨k, _, _, _, he, hk, -⟩ := readLoop_footprint (Nat.zero_le _) h
    obtain ⟨k', hcap, st, r, n, rfl, hcases⟩ := readLoop_cases h
    obtain rfl : k' = k := readsFrom_injective (List.append_cancel_left (congrArg State.accesses he))
    refine ⟨k', hcap, by omega, st, r, n, by rw [readsTo_eq], ?_⟩
    rcases hcases with ⟨hst, hn, -⟩ | ⟨hst, -, -, hlen⟩ | ⟨hst, -, -, -, hn⟩
    · exact .inl ⟨hst, by omega⟩
    · exact .inr (.inl ⟨hst, by rw [if_pos rfl]; omega⟩)
    · exact .inr (.inr ⟨hst, hn⟩)

/-- `initDetail` on a buffer of fewer than four bytes (R138). -/
theorem initDetail_short {strict : Bool} {s t : State} (hlen : s.cmd.buf.len < 4)
    (h : execInitDetail strict s = .next t) : t = respond .invalidArgument 0 0 s := by
  have ht := truthful_of_initDetail h
  cases hp : s.cmd.buf.present with
  | false =>
    rw [execInitDetail, withReadBuffer_absent _ hp] at h
    exact (Host.Outcome.next.inj h).symm
  | true =>
    rw [execInitDetail, withReadBuffer_truthful _ hp (by simpa [hp] using ht)] at h
    simpa [lengthStatus, hlen, eq_comm] using h

/-! ## An answer depends on no byte outside its footprint (R37) -/

section footprint
variable {s s' t : State} (hc : s'.cmd = s.cmd)
  (hb : ∀ off, .read off ∈ t.accesses → bufferByte s' off = bufferByte s off)
include hc

/-- Without a buffer no byte tells the two states apart. -/
theorem indistinct_of_absent (hp : s.cmd.buf.present = false) : Indistinct s s' where
  operandA := congrArg (·.a) hc
  operandB := congrArg (·.b) hc
  present := congrArg (·.buf.present) hc
  lengths := congrArg (min ·.buf.len 10) hc
  bytes hp' := by rw [hp] at hp'; exact absurd hp' (by simp)

include hb

theorem varintRead_sameAnswer_of_reads {w cap : Nat} {strict : Bool} (hp : s.cmd.buf.present = true)
    (ht : truthfulRead s = true) (ht' : truthfulRead s' = true) (h : varintRead w cap strict s = .next t) :
    SameAnswer s s' (varintRead w cap strict s) (varintRead w cap strict s') := by
  rw [varintRead, withReadBuffer_truthful _ hp ht] at h ⊢
  rw [varintRead, withReadBuffer_truthful _ (hc ▸ hp) ht', h]
  obtain ⟨k, st, r, n, rfl, -, hsame⟩ := readLoop_footprint (Nat.zero_le _) h
  rw [hsame s' hc (hc ▸ truthfulRead_iff.1 ht') fun off _ ho => hb off (by simp [readsFrom]; omega)]
  exact sameAnswer_of_respond st r n _

theorem initDetail_sameAnswer_of_reads {strict : Bool} (hp : s.cmd.buf.present = true)
    (ht : truthfulRead s = true) (ht' : truthfulRead s' = true) (h : execInitDetail strict s = .next t) :
    SameAnswer s s' (execInitDetail strict s) (execInitDetail strict s') := by
  by_cases hlen : s.cmd.buf.len < 4
  · obtain ⟨t', h'⟩ : ∃ t', execInitDetail strict s' = .next t' := by
      rw [execInitDetail, withReadBuffer_truthful _ (hc ▸ hp) ht']
      simp [lengthStatus, hc, hlen]
    rw [h, h', initDetail_short hlen h, initDetail_short (hc ▸ hlen) h']
    exact sameAnswer_of_respond_only _ _ _
  · obtain ⟨bs, hl, hbs⟩ := exists_bytes 4 (s := s) fun off ho => truthfulRead_iff.1 ht off (by omega)
    match bs, hl with
    | [b0, b1, b2, b3], _ =>
      have he := initDetail_ok (strict := strict) hp ht (by omega) hbs
      obtain rfl := Host.Outcome.next.inj (he.symm.trans h)
      have hbs' : beginsWith s' [b0, b1, b2, b3] := fun j b hj => by
        have hj4 : j < 4 := (List.getElem?_eq_some_iff.1 hj).1
        exact (hb j (by simp [readsTo]; omega)).trans (hbs j b hj)
      rw [he, initDetail_ok (hc ▸ hp) ht' (by rw [hc]; omega) hbs']
      exact sameAnswer_of_respond .ok _ 4 _

/-- A reader or `initDetail` gives the same answer wherever the offsets it has read hold the same bytes. -/
theorem exec_sameAnswer_of_reads {i : Instr} (hi : bufferUse i = .reads) (h : exec i s = .next t)
    (ht' : truthfulFor i s' = true) : SameAnswer s s' (exec i s) (exec i s') := by
  have ht := truthfulFor_of_exec h
  cases hp : s.cmd.buf.present with
  | false => exact exec_sameAnswer (indistinct_of_absent hc hp) ht ht'
  | true =>
    have htr : truthfulRead s = true := by simpa [truthfulFor, hi, hp] using ht
    have htr' : truthfulRead s' = true := by simpa [truthfulFor, hi, hc, hp] using ht'
    cases i with
    | readVarintU32 b | readVarintU64 b | readVarintI32 b | readVarintI64 b =>
      exact varintRead_sameAnswer_of_reads hc hb hp htr htr' h
    | initDetail b => exact initDetail_sameAnswer_of_reads (strict := b) hc hb hp htr htr' h
    | writeVarintU32 _ | writeVarintU64 _ | writeVarintI32 _ | writeVarintI64 _ | kindGet _ | kindSet _ | ordinalGet _
    | ordinalSet _ => exact absurd hi (by simp [bufferUse])
end footprint

/-- Settles O26: the accesses by outcome, and one answer for all states that agree on them. -/
theorem readFootprint : Obligations.ReadFootprint := by
  refine ⟨readers_of fun w cap op hcap hop b s t r h hr => ?_, fun b s t r h hr => ?_,
    fun i s s' t hi h hc ha ht' hb => ?_⟩
  · rw [hop] at h
    obtain ⟨k, hk, hlen, st, x, n, rfl, hcases⟩ := varintRead_reads h
    obtain rfl := Option.some.inj hr
    rcases hcases with ⟨rfl, rfl⟩ | ⟨rfl, rfl⟩ | ⟨rfl, rfl⟩
    · have hn : (BitVec.ofNat 8 n).toNat = n := by rw [BitVec.toNat_ofNat]; omega
      simp only [hn]
      exact ⟨rfl, rfl, hlen⟩
    · exact ⟨rfl, rfl, hlen⟩
    · exact ⟨rfl, rfl, hlen⟩
  · rcases initDetail_next (strict := b) h with rfl | ⟨d, rfl⟩ <;> obtain rfl := Option.some.inj hr
    · exact ⟨rfl, (List.append_nil _).symm, fun hok => absurd hok (by simp)⟩
    · refine ⟨rfl, rfl, fun _ => Nat.not_lt.1 fun hlen => ?_⟩
      simpa using congrArg State.rsp (initDetail_short (strict := b) hlen h)
  · obtain ⟨r, as, bs, he, he'⟩ := exec_sameAnswer_of_reads hc hb hi h ht'
    obtain rfl := Host.Outcome.next.inj (h.symm.trans he)
    exact ⟨_, he', rfl, congrArg (· ++ as) ha⟩

/-! ## What a writer writes, by outcome (R38) -/

theorem writesFrom_eq_zipIdx (i : Nat) (bs : List Byte) :
    writesFrom i bs = (bs.zipIdx i).map fun x => .write x.2 x.1 := by
  induction bs generalizing i with
  | nil => rfl
  | cons b bs ih => rw [writesFrom, ih, List.zipIdx_cons, List.map_cons]

/-- Settles O27: the bytes written are the encoding of the value. -/
theorem writeFootprint : Obligations.WriteFootprint := by
  refine writers_of fun w cap value op hw hc hcap hop b s t r h hr => ?_
  rw [hop] at h
  rcases varintWrite_next hw hc h with rfl | ⟨hlen, -, -, rfl⟩ <;> obtain rfl := Option.some.inj hr
  · exact ⟨fun hok => absurd hok (by simp), fun _ => ⟨rfl, rfl⟩⟩
  · generalize value s.cmd = v at *
    have hn : (BitVec.ofNat 8 (varintLen v)).toNat = (encoding v).length := by
      have := varintLen_le_cap v hw hc
      rw [BitVec.toNat_ofNat, encoding_length]
      omega
    have hbyte := bufferByte_after s ⟨.ok, 0, BitVec.ofNat 8 (varintLen v)⟩ (writesOf v) (encoding v)
    rw [← encoding_length v] at hlen
    simp only [hn]
    refine ⟨fun _ => ⟨hlen, ⟨encoding v, rfl, fun i b hi => ?_, ?_⟩, fun off ho => ?_⟩,
      fun hne => absurd rfl hne⟩
    · exact (hbyte i).trans ((if_pos (List.getElem?_eq_some_iff.1 hi).1).trans hi)
    · rw [← writesFrom_eq_zipIdx, ← writesOf_eq]
      rfl
    · exact (hbyte off).trans (if_neg (by omega))

/-! ## A command that fails (R39, R163) -/

/-- The kind field is bits [7:4] of operand A (R131). -/
theorem kindField_operandLow (c : Command) : kindField (operandLow c) = c.a.extractLsb' 4 4 := by
  ext j hj
  simp [kindField, operandLow]

/-- `UnrecognizedKind` comes from `kind_get` alone, and `r` is then the kind number (R162). -/
theorem exec_unrecognizedKind {i : Instr} {s t : State} {r : Response} (h : exec i s = .next t) (hr : t.rsp = some r)
    (hst : r.status = .unrecognizedKind) : r.r = zext64 (s.cmd.a.extractLsb' 4 4) := by
  cases i with
  | readVarintU32 b | readVarintU64 b | readVarintI32 b | readVarintI64 b =>
    obtain ⟨k, -, st, x, n, rfl, hcases⟩ := varintRead_next h
    obtain rfl := Option.some.inj hr
    rcases hcases with ⟨rfl, -⟩ | ⟨rfl, -⟩ | ⟨rfl, -⟩ <;> exact absurd hst (by simp)
  | writeVarintU32 b | writeVarintU64 b | writeVarintI32 b | writeVarintI64 b =>
    rcases varintWrite_next (by norm_num) (by norm_num) h with rfl | ⟨-, -, -, rfl⟩ <;>
      obtain rfl := Option.some.inj hr <;> exact absurd hst (by simp)
  | initDetail b =>
    rcases initDetail_next (strict := b) h with rfl | ⟨d, rfl⟩ <;>
      obtain rfl := Option.some.inj hr <;> exact absurd hst (by simp)
  | kindGet b =>
    rw [exec, execKindGet_eq] at h
    obtain rfl := Host.Outcome.next.inj h
    obtain rfl := Option.some.inj hr
    rw [← kindField_operandLow]
  | kindSet b | ordinalGet b | ordinalSet b =>
    obtain rfl := Host.Outcome.next.inj h
    obtain rfl := Option.some.inj hr
    exact absurd hst (by simp)

theorem runCommand_unrecognizedKind {s t : State} {r : Response} (h : runCommand s = .next t) (hr : t.rsp = some r)
    (hst : r.status = .unrecognizedKind) : r.r = zext64 (s.cmd.a.extractLsb' 4 4) := by
  cases hd : decodeWord s.cmd.word with
  | ok i => exact exec_unrecognizedKind (runCommand_ok hd ▸ h) hr hst
  | error e =>
    rw [runCommand_error hd] at h
    obtain rfl := Host.Outcome.next.inj h
    obtain rfl := Option.some.inj hr
    exact absurd hst (by simp)

/-- A legal record of an error counts nothing, and carries nothing but an unknown kind number (R163). -/
theorem error_of_shape {r : Response} (hs : r.shape = true) (he : r.status ≠ .ok) :
    r.count = 0 ∧ (r.status ≠ .unrecognizedKind → r.r = 0) := by
  obtain ⟨st, x, n⟩ := r
  cases st <;> simp_all [Response.shape]

/-- Settles O19: an error is answered by reading, so memory stays, and the record is a legal one. -/
theorem failedCommandLeavesNoTrace : Obligations.FailedCommandLeavesNoTrace := by
  intro s t c rest r hp hrst h hr he
  rw [step_issue hp hrst] at h
  have hkind := runCommand_unrecognizedKind h hr
  rw [accept_cmd] at hkind
  rcases runCommand_next h with ⟨k, -, st, x, n, rfl, hs⟩ | ⟨w, v, -, -, -, -, rfl⟩ <;>
    obtain rfl := Option.some.inj hr
  · obtain ⟨hcount, hzero⟩ := error_of_shape hs he
    exact ⟨rfl, hcount, hzero, hkind⟩
  · exact absurd rfl he

/-! ## Another agent beside a command (R40, R48, R172) -/

theorem commandUse_ok {c : Command} {i : Instr} (h : decodeWord c.word = .ok i) : commandUse c = bufferUse i := by
  rw [commandUse, h]

theorem inBuffer_iff {c : Command} {addr : Nat} : inBuffer c addr = true ↔
    c.buf.present = true ∧ c.buf.base ≤ addr ∧ addr < c.buf.base + c.buf.len := by
  simp [inBuffer, and_assoc]

theorem inBuffer_eq_false_iff {c : Command} {addr : Nat} : inBuffer c addr = false ↔
    addr < c.buf.base ∨ c.buf.base + c.buf.len ≤ addr ∨ c.buf.present = false := by
  rw [Bool.eq_false_iff, Ne, inBuffer_iff]
  cases c.buf.present with
  | false => simp
  | true => simp only [true_and, Bool.true_eq_false, or_false]; omega

/-- A write of the buffer collides with every command that uses it (R48). -/
theorem touchConflicts_write {c : Command} {use : BufferUse} (hu : use ≠ .ignores) (addr : Nat) (v : Byte) :
    touchConflicts c use (.write addr v) = inBuffer c addr := by
  cases use with
  | ignores => exact absurd rfl hu
  | reads | writes => rfl

theorem shares_of_mem {c : Command} {others : List Touch} {x : Touch} (hx : x ∈ others)
    (hc : touchConflicts c (commandUse c) x = true) : shares c others = true :=
  List.any_eq_true.2 ⟨x, hx, hc⟩

/-- Beside a command that uses its buffer, another agent that does not collide writes outside it. -/
theorem inBuffer_of_not_shares {c : Command} {others : List Touch} {addr : Nat} {v : Byte}
    (hs : shares c others = false) (hx : .write addr v ∈ others) (hu : commandUse c ≠ .ignores) :
    inBuffer c addr = false := by
  rw [← touchConflicts_write hu addr v]
  exact Bool.eq_false_iff.2 fun hc => by rw [shares_of_mem hx hc] at hs; exact absurd hs (by simp)

/-- A collision has no meaning (R48). -/
theorem perform_issueBeside_shared {c : Command} {others : List Touch} {s : State} (hr : s.rst = false)
    (hs : shares c others = true) : perform (.issueBeside c others) s = .refused .sharedBuffer := by
  rw [perform, if_pos (cmdReady_iff.2 hr), if_pos hs]

/-- What a step with another agent's accesses can do: in reset they alone happen, otherwise they do not collide and the
command follows them (R172, R191). -/
theorem perform_issueBeside_next {c : Command} {others : List Touch} {s u : State}
    (h : perform (.issueBeside c others) s = .next u) :
    (s.rst = true ∧ u = applyTouches others s) ∨
      (s.rst = false ∧ shares c others = false ∧ runCommand (accept c (applyTouches others s)) = .next u) := by
  cases hr : s.rst with
  | true =>
    rw [perform, if_neg (by simp [cmdReady, hr])] at h
    exact .inl ⟨rfl, (Host.Outcome.next.inj h).symm⟩
  | false =>
    cases hs : shares c others with
    | true => rw [perform_issueBeside_shared hr hs] at h; exact absurd h (by simp)
    | false =>
      rw [perform, if_pos (cmdReady_iff.2 hr), hs, if_neg (by simp)] at h
      exact .inr ⟨rfl, rfl, h⟩

/-- Settles O11. -/
theorem sharedBufferIsRefused : Obligations.SharedBufferIsRefused := by
  intro s c others rest i addr hp hr hd hpr hlo hhi hx
  have hin : inBuffer c addr = true := inBuffer_iff.2 ⟨hpr, hlo, hhi⟩
  rw [step_cons hp]
  refine perform_issueBeside_shared hr ?_
  rcases hx with ⟨hu, v, hx⟩ | ⟨hu, hx⟩ <;> refine shares_of_mem hx ?_ <;> rw [commandUse_ok hd]
  · exact (touchConflicts_write hu addr v).trans hin
  · rw [hu]; exact hin

/-- The frame of a command: memory, response and accesses are all it changes. -/
theorem runCommand_frame {s t : State} (h : runCommand s = .next t) :
    t = { s with mem := t.mem, rsp := t.rsp, accesses := t.accesses } := by
  rcases runCommand_next h with ⟨k, -, st, r, n, rfl, -⟩ | ⟨w, v, -, -, -, -, rfl⟩ <;> rfl

/-- A command leaves every address but those in the buffer of a writer (R38, R49). -/
theorem runCommand_byteAt {s t : State} {addr : Nat} (h : runCommand s = .next t)
    (ha : commandUse s.cmd ≠ .writes ∨ inBuffer s.cmd addr = false) :
    Memory.byteAt t.mem addr = Memory.byteAt s.mem addr := by
  cases hd : decodeWord s.cmd.word with
  | ok i =>
    rw [runCommand_ok hd] at h
    rw [commandUse_ok hd] at ha
    obtain ⟨-, -, hmem, hbyte⟩ := operationFrame i s t h
    rcases ha with ha | ha
    · rw [hmem ha]
    · exact hbyte addr (inBuffer_eq_false_iff.1 ha)
  | error e =>
    rw [runCommand_error hd] at h
    obtain rfl := Host.Outcome.next.inj h
    rfl

/-- Settles O53: the other agent's accesses come first, and the command that follows them, if any, does not collide. -/
theorem otherAgentsWritesLand : Obligations.OtherAgentsWritesLand := by
  intro s u c others rest hp h
  rw [step_cons hp] at h
  rcases perform_issueBeside_next h with ⟨hr, rfl⟩ | ⟨hr, hs, hrun⟩
  · refine ⟨?_, fun addr hno _ => byteAt_applyTouches_other _ hno, ?_, fun _ => by simp⟩
    · rintro front addr v back rfl hlast
      exact byteAt_applyTouches_last front v _ hlast
    · rw [applyTouches_eq]
  · have hbyte := fun addr => runCommand_byteAt (addr := addr) hrun
    simp only [accept_cmd, accept_mem] at hbyte
    refine ⟨?_, fun addr hno ha => ?_, ?_, fun hr' => absurd (hr.symm.trans hr') (by simp)⟩
    · rintro front addr v back rfl hlast
      rw [hbyte addr, byteAt_applyTouches_last front v _ hlast]
      by_cases hu : commandUse c = .writes
      · exact .inr (inBuffer_of_not_shares (v := v) hs (by simp) (by simp [hu]))
      · exact .inl hu
    · rw [hbyte addr (ha.resolve_left (Bool.eq_false_iff.1 hr)), byteAt_applyTouches_other _ hno]
    · rw [runCommand_frame hrun, applyTouches_eq]
      rfl

/-! ## A byte the host writes (R40, R44) -/

/-- Settles O52. -/
theorem hostWriteSetsOneByte : Obligations.HostWriteSetsOneByte := by
  intro s addr v rest hp
  exact ⟨_, step_cons hp, rfl, Memory.byteAt_store_same _ _ _, fun a ha => Memory.byteAt_store_other _ _ ha⟩

end Sys2Proof.Machine

/-! # What an operation does not read of its command cannot count (spec/30_encoding.md R52, R57) -/

namespace Sys2Proof.Machine

open Sys2Proof.Claims

/-! ## Another command record in the same state -/

/-- The state with another command record in place of the accepted one. -/
def State.withCommand (s : State) (c : Command) : State := { s with cmd := c }

/-- An outcome with another command record in the next state, if there is one. -/
def replaceCommand (c : Command) : Result → Result
  | .next t => .next (t.withCommand c)
  | .fault f => .fault f
  | .refused e => .refused e

@[simp] theorem replaceCommand_next (c : Command) (t : State) :
    replaceCommand c (.next t) = .next (t.withCommand c) := rfl

@[simp] theorem respond_withCommand (st : Status) (r : Word64) (n : Nat) (s : State) (c : Command) :
    respond st r n (s.withCommand c) = (respond st r n s).withCommand c := rfl

section sameBufferOperand
variable {s : State} {c : Command} (hb : s.cmd.buf = c.buf)
include hb

theorem bufferAddr_eq_of_buf (off : Nat) : bufferAddr c off = bufferAddr s.cmd off := by
  rw [bufferAddr_eq, bufferAddr_eq, hb]

theorem buf_len_withCommand : (s.withCommand c).cmd.buf.len = s.cmd.buf.len := congrArg Buffer.len hb.symm

theorem buf_present_withCommand : (s.withCommand c).cmd.buf.present = s.cmd.buf.present :=
  congrArg Buffer.present hb.symm

theorem readableAt_withCommand (off : Nat) : readableAt (s.withCommand c) off = readableAt s off := by
  simp only [readableAt, State.withCommand, bufferAddr_eq_of_buf hb]

theorem writableAt_withCommand (off : Nat) : writableAt (s.withCommand c) off = writableAt s off := by
  simp only [writableAt, State.withCommand, bufferAddr_eq_of_buf hb]

theorem truthfulRead_withCommand : truthfulRead (s.withCommand c) = truthfulRead s := by
  rw [truthfulRead, truthfulRead, buf_len_withCommand hb, funext (readableAt_withCommand hb)]

theorem truthfulWrite_withCommand : truthfulWrite (s.withCommand c) = truthfulWrite s := by
  rw [truthfulWrite, truthfulWrite, buf_len_withCommand hb, funext (writableAt_withCommand hb)]

/-- A byte read looks at the buffer operand alone. -/
theorem memRead_withCommand (off : Nat) :
    memRead off (s.withCommand c) = (memRead off s).map (Prod.map id (·.withCommand c)) := by
  rw [memRead, memRead, readableAt_withCommand hb]
  split
  next =>
    rw [Option.map_map]
    change Option.map _ (Memory.byteAt s.mem (bufferAddr c off)) = _
    rw [bufferAddr_eq_of_buf hb]
    rfl
  next => rfl

/-- A byte write looks at the buffer operand alone. -/
theorem memWrite_withCommand (off : Nat) (v : Byte) :
    memWrite off v (s.withCommand c) = (memWrite off v s).map (·.withCommand c) := by
  rw [memWrite, memWrite, writableAt_withCommand hb]
  split
  next => simp only [State.withCommand, bufferAddr_eq_of_buf hb, Option.map_some]
  next => rfl

theorem readLoop_withCommand (w : Nat) (strict : Bool) (left i : Nat) (acc : BitVec w) :
    readLoop w strict left i acc (s.withCommand c) = replaceCommand c (readLoop w strict left i acc s) := by
  induction left generalizing i acc s with
  | zero => cases strict <;> rfl
  | succ left ih =>
    rw [readLoop, readLoop, buf_len_withCommand hb, memRead_withCommand hb]
    split
    next => rfl
    next =>
      cases hm : memRead i s with
      | none => rfl
      | some p =>
        obtain ⟨b, s1⟩ := p
        obtain ⟨-, -, rfl⟩ := memRead_some hm
        by_cases hc : continues b = true
        · simpa [hc] using ih (s := s.withAccesses [.read i]) hb (i + 1) _
        · simp [hc]

theorem readBytes_withCommand (left i : Nat) :
    readBytes left i (s.withCommand c) = (readBytes left i s).map (Prod.map id (·.withCommand c)) := by
  induction left generalizing i s with
  | zero => rfl
  | succ left ih =>
    rw [readBytes, readBytes, memRead_withCommand hb]
    cases hm : memRead i s with
    | none => rfl
    | some p =>
      obtain ⟨b, s1⟩ := p
      obtain ⟨-, -, rfl⟩ := memRead_some hm
      have := ih (s := s.withAccesses [.read i]) hb (i + 1)
      simp only [Option.map_some, Prod.map, id_eq, this]
      cases readBytes left (i + 1) (s.withAccesses [.read i]) <;> rfl

theorem writeLoop_withCommand {w : Nat} (left i : Nat) (rem : BitVec w) :
    writeLoop left i rem (s.withCommand c) = replaceCommand c (writeLoop left i rem s) := by
  induction left generalizing i rem s with
  | zero => rfl
  | succ left ih =>
    rw [writeLoop, writeLoop, memWrite_withCommand hb, memWrite_withCommand hb]
    split
    next => cases memWrite i (varintByte false (trunc 7 rem)) s <;> rfl
    next =>
      cases hm : memWrite i (varintByte true (trunc 7 rem)) s with
      | none => rfl
      | some s1 =>
        obtain ⟨-, hs1⟩ := memWrite_some hm
        exact ih (s := s1) (by rw [hs1]; exact hb) (i + 1) _
end sameBufferOperand

section bufferUsed
variable {s : State} {c : Command} (hb : s.cmd.buf = c.buf ∨ (s.cmd.buf.present = false ∧ c.buf.present = false))
include hb

/-- Of an absent buffer nothing else counts; a present one is the same (R13). -/
theorem withReadBuffer_withCommand {go : State → Result}
    (hgo : s.cmd.buf = c.buf → go (s.withCommand c) = replaceCommand c (go s)) :
    withReadBuffer (s.withCommand c) go = replaceCommand c (withReadBuffer s go) := by
  rcases hb with hb | ⟨hp, hp'⟩
  · rw [withReadBuffer, withReadBuffer, buf_present_withCommand hb, truthfulRead_withCommand hb, hgo hb]
    split_ifs <;> rfl
  · rw [withReadBuffer_absent go hp, withReadBuffer_absent (s := s.withCommand c) go hp']
    rfl

theorem withWriteBuffer_withCommand {go : State → Result}
    (hgo : s.cmd.buf = c.buf → go (s.withCommand c) = replaceCommand c (go s)) :
    withWriteBuffer (s.withCommand c) go = replaceCommand c (withWriteBuffer s go) := by
  rcases hb with hb | ⟨hp, hp'⟩
  · rw [withWriteBuffer, withWriteBuffer, buf_present_withCommand hb, truthfulWrite_withCommand hb, hgo hb]
    split_ifs <;> rfl
  · rw [withWriteBuffer_absent go hp, withWriteBuffer_absent (s := s.withCommand c) go hp']
    rfl

theorem varintRead_withCommand (w cap : Nat) (strict : Bool) :
    varintRead w cap strict (s.withCommand c) = replaceCommand c (varintRead w cap strict s) :=
  withReadBuffer_withCommand hb fun hb => readLoop_withCommand hb w strict cap 0 0

theorem varintWrite_withCommand {w : Nat} (cap : Nat) (v : BitVec w) :
    varintWrite cap v (s.withCommand c) = replaceCommand c (varintWrite cap v s) := by
  refine withWriteBuffer_withCommand hb fun hb => ?_
  rw [buf_len_withCommand hb]
  split
  next => exact writeLoop_withCommand hb cap 0 v
  next => rfl

theorem execInitDetail_withCommand (strict : Bool) :
    execInitDetail strict (s.withCommand c) = replaceCommand c (execInitDetail strict s) := by
  refine withReadBuffer_withCommand hb fun hb => ?_
  rw [buf_len_withCommand hb, readBytes_withCommand hb]
  split
  next =>
    match readBytes Config.nativeBytes 0 s with
    | some ([_, _, _, _], _) => rfl
    | none | some ([], _) | some ([_], _) | some ([_, _], _) | some ([_, _, _], _)
    | some (_ :: _ :: _ :: _ :: _ :: _, _) => rfl
  next => rfl
end bufferUsed

/-- R57 as one equation: a second command that agrees on what the operation reads gives the same outcome, but for the
command record that stands in the next state. -/
theorem exec_withCommand {i : Instr} {s : State} {c : Command} (h : sameUse i s.cmd c) :
    exec i (s.withCommand c) = replaceCommand c (exec i s) := by
  cases i with
  | readVarintU32 b | readVarintU64 b | readVarintI32 b | readVarintI64 b => exact varintRead_withCommand h _ _ b
  | initDetail b => exact execInitDetail_withCommand h b
  | writeVarintU32 b | writeVarintI32 b =>
    obtain ⟨hlow, hb⟩ := h
    have hv : operandLow (s.withCommand c).cmd = operandLow s.cmd := hlow.symm
    simp only [exec, execWriteVarintU32, execWriteVarintI32, asUnsigned, hv]
    exact varintWrite_withCommand hb _ _
  | writeVarintU64 b | writeVarintI64 b =>
    obtain ⟨hfull, hb⟩ := h
    have hv : operandFull (s.withCommand c).cmd = operandFull s.cmd := hfull.symm
    simp only [exec, execWriteVarintU64, execWriteVarintI64, asUnsigned, hv]
    exact varintWrite_withCommand hb _ _
  | kindGet b =>
    have hlow : operandLow (s.withCommand c).cmd = operandLow s.cmd := h.symm
    simp only [exec, execKindGet_eq, hlow, respond_withCommand, replaceCommand_next]
  | ordinalGet b =>
    have hlow : operandLow (s.withCommand c).cmd = operandLow s.cmd := h.symm
    simp only [exec, execOrdinalGet, hlow, returnOk_eq, respond_withCommand, replaceCommand_next]
  | kindSet b =>
    obtain ⟨ha, hb⟩ := h
    have hlow : operandLow (s.withCommand c).cmd = operandLow s.cmd := ha.symm
    have hkind : operandKind (s.withCommand c).cmd = operandKind s.cmd := hb.symm
    simp only [exec, execKindSet, hlow, hkind, returnOk_eq, respond_withCommand, replaceCommand_next]
  | ordinalSet b =>
    obtain ⟨ha, hb⟩ := h
    have hlow : operandLow (s.withCommand c).cmd = operandLow s.cmd := ha.symm
    have hord : operandOrdinal (s.withCommand c).cmd = operandOrdinal s.cmd := hb.symm
    simp only [exec, execOrdinalSet, hlow, hord, returnOk_eq, respond_withCommand, replaceCommand_next]

/-- Settles O21: both clauses are read off the one equation. -/
theorem unusedOperandsHaveNoInfluence : Obligations.UnusedOperandsHaveNoInfluence := by
  intro i s c' h
  have he := exec_withCommand h
  exact ⟨fun t ht => he.trans (congrArg (replaceCommand c') ht), fun e hr => he.trans (congrArg (replaceCommand c') hr)⟩

end Sys2Proof.Machine

/-! # The decoder, the encoder and the opcode table (spec/30_encoding.md R50 to R56, R61) -/

namespace Sys2Proof

open Sys2Proof.Laws

/-! ## Encoding and decoding -/

/-- Every operation's command word is as R50 prescribes. -/
theorem encodedWord (i : Instr) : EncodedWord.Statement i := by
  cases i with
  | readVarintU32 b => exact EncodedWord.readVarintU32 b
  | writeVarintU32 b => exact EncodedWord.writeVarintU32 b
  | readVarintU64 b => exact EncodedWord.readVarintU64 b
  | writeVarintU64 b => exact EncodedWord.writeVarintU64 b
  | readVarintI32 b => exact EncodedWord.readVarintI32 b
  | writeVarintI32 b => exact EncodedWord.writeVarintI32 b
  | readVarintI64 b => exact EncodedWord.readVarintI64 b
  | writeVarintI64 b => exact EncodedWord.writeVarintI64 b
  | kindGet b => exact EncodedWord.kindGet b
  | kindSet b => exact EncodedWord.kindSet b
  | ordinalGet b => exact EncodedWord.ordinalGet b
  | ordinalSet b => exact EncodedWord.ordinalSet b
  | initDetail b => exact EncodedWord.initDetail b

theorem wordDefined_iff {w : Byte} :
    wordDefined w = true ↔ w.extractLsb' 5 3 = 0 ∧ (w.extractLsb' 0 4).toNat ≤ 0xC := by
  simp [wordDefined, reservedClear, opcodeDefined]

/-- The opcode map sends each operation's opcode to the operation (R51). -/
theorem decodeOpcode_opcode (i : Instr) : decodeOpcode i.opcode i.strict = .ok i := by cases i <;> rfl

/-- Only the operation's own opcode and strict bit select it (R51). -/
theorem decodeOpcode_ok {op : BitVec 4} {b : Bool} {i : Instr} (h : decodeOpcode op b = .ok i) :
    i.opcode = op ∧ i.strict = b := by
  unfold decodeOpcode at h
  split at h
  case h_14 => exact absurd h (by simp)
  all_goals
    next hop =>
    obtain rfl := Except.ok.inj h
    exact ⟨BitVec.eq_of_toNat_eq hop.symm, rfl⟩

/-- The opcode map rejects exactly 0xD to 0xF (R55). -/
theorem decodeOpcode_error_iff {op : BitVec 4} {b : Bool} :
    (∃ e, decodeOpcode op b = .error e) ↔ 0xD ≤ op.toNat := by
  unfold decodeOpcode
  split
  case h_14 => exact ⟨fun _ => by simp only [imp_false] at *; omega, fun _ => ⟨_, rfl⟩⟩
  all_goals next hop => simp [hop]

theorem decodeWord_of_clear {w : Byte} (h : w.extractLsb' 5 3 = 0) :
    decodeWord w = decodeOpcode (w.extractLsb' 0 4) (w.getLsbD 4) := if_pos h

theorem decodeWord_of_reserved {w : Byte} (h : w.extractLsb' 5 3 ≠ 0) : decodeWord w = .error .reservedBits := if_neg h

theorem decodeWord_encodeWord (i : Instr) : decodeWord (encodeWord i) = .ok i := by
  obtain ⟨-, hw, hop, hstrict⟩ := encodedWord i
  rw [decodeWord_of_clear (wordDefined_iff.1 hw).1, hop, hstrict, decodeOpcode_opcode]

/-- A word with clear reserved bits is its strict bit and its opcode (R50). -/
theorem append_fields_of_clear {w : Byte} (h : w.extractLsb' 5 3 = 0) :
    (0 : BitVec 3) ++ BitVec.ofBool (w.getLsbD 4) ++ w.extractLsb' 0 4 = w := by
  decide +revert

theorem encodeWord_of_decodeWord {w : Byte} {i : Instr} (h : decodeWord w = .ok i) : encodeWord i = w := by
  by_cases hr : w.extractLsb' 5 3 = 0
  · rw [decodeWord_of_clear hr] at h
    obtain ⟨hop, hstrict⟩ := decodeOpcode_ok h
    rw [encodeWord, hop, hstrict, append_fields_of_clear hr]
  · rw [decodeWord_of_reserved hr] at h
    exact absurd h (by simp)

/-- The decoder rejects exactly the reserved words (R55). -/
theorem decodeWord_error_iff {w : Byte} :
    (∃ e, decodeWord w = .error e) ↔ w.extractLsb' 5 3 ≠ 0 ∨ 0xD ≤ (w.extractLsb' 0 4).toNat := by
  by_cases hr : w.extractLsb' 5 3 = 0
  · rw [decodeWord_of_clear hr, decodeOpcode_error_iff]
    simp [hr]
  · rw [decodeWord_of_reserved hr]
    exact ⟨fun _ => .inl hr, fun _ => ⟨_, rfl⟩⟩

/-! ## The opcode table -/

/-- The mask of the table leaves the opcode of a command word (R51). -/
theorem encodeWord_and_mask (i : Instr) : encodeWord i &&& 0xEF#8 = i.opcode.setWidth 8 := by
  cases i <;> next b => cases b <;> rfl

theorem tableMnemonic_encodeWord (i : Instr) : tableMnemonic (encodeWord i) = some i.mnemonic := by
  cases i <;> next b => cases b <;> rfl

/-- Every row checks all bits but `strict`, against a word that is defined (R51). -/
theorem opcodeTable_rows : ∀ row ∈ opcodeTable, row.mask = 0xEF#8 ∧ wordDefined row.pattern = true := by decide

/-- The strict bit has no part in whether a word is defined (R55, R56). -/
theorem wordDefined_and_mask (w : Byte) : wordDefined (w &&& 0xEF#8) = wordDefined w := by
  have hres : (w &&& 0xEF#8).extractLsb' 5 3 = w.extractLsb' 5 3 := by
    rw [BitVec.extractLsb'_and]; exact BitVec.and_allOnes
  have hop : (w &&& 0xEF#8).extractLsb' 0 4 = w.extractLsb' 0 4 := by
    rw [BitVec.extractLsb'_and]; exact BitVec.and_allOnes
  rw [wordDefined, wordDefined, reservedClear, reservedClear, hres, hop]

/-- A reserved word matches no row (R55). -/
theorem tableMnemonic_of_undefined {w : Byte} (h : wordDefined w = false) : tableMnemonic w = none := by
  rw [tableMnemonic, Option.map_eq_none_iff, List.find?_eq_none]
  intro row hrow hmatch
  obtain ⟨hmask, hdef⟩ := opcodeTable_rows row hrow
  rw [hmask, beq_iff_eq] at hmatch
  rw [← hmatch, wordDefined_and_mask, h] at hdef
  exact absurd hdef (by simp)

/-! ## The statements about the command word -/

/-- Settles O1. -/
theorem sampleWordsDecode : Obligations.SampleWordsDecode := ⟨rfl, rfl, rfl, rfl, rfl, rfl, rfl, rfl, rfl, rfl⟩

/-- Settles O2. -/
theorem decodeOfEncode : Obligations.DecodeOfEncode := by
  intro i rest _
  rw [encode, List.singleton_append, decode, decodeWord_encodeWord]

/-- Settles O3. -/
theorem encodeOfDecode : Obligations.EncodeOfDecode := fun _ _ => encodeWord_of_decodeWord

/-- Settles O4: a word that decodes is an encoding, whose row is known; one that is rejected is not defined. -/
theorem decoderFollowsOpcodeTable : Obligations.DecoderFollowsOpcodeTable := by
  intro w
  cases hd : decodeWord w with
  | ok i =>
    obtain rfl := encodeWord_of_decodeWord hd
    obtain ⟨-, -, -, hstrict⟩ := encodedWord i
    exact .inl ⟨i, rfl, tableMnemonic_encodeWord i, hstrict.symm, encodeWord_and_mask i⟩
  | error e =>
    have hres := decodeWord_error_iff.1 ⟨e, hd⟩
    refine .inr ⟨⟨e, rfl⟩, tableMnemonic_of_undefined ?_, hres⟩
    rw [Bool.eq_false_iff, Ne, wordDefined_iff]
    rintro ⟨hclear, hop⟩
    exact hres.elim (absurd hclear) fun h => by omega

end Sys2Proof

namespace Sys2Proof.Machine

open Sys2Proof.Claims

/-! ## A reserved word is answered (R55, R165) -/

/-- Settles O6. -/
theorem reservedWordIsIllegalOp : Obligations.ReservedWordIsIllegalOp := by
  intro s c rest hp hr hres
  obtain ⟨e, he⟩ := decodeWord_error_iff.2 hres.symm
  exact (step_issue hp hr).trans (runCommand_error (s := accept c { s with pending := rest }) he)

/-! ## Who reads the strict bit (R56) -/

/-- A buffer of ten bytes that all have bit 7 set: both caps are reached with no end in sight (R85, R86). -/
def endlessBuffer : State :=
  { State.reset with
    mem := (List.range 10).map fun addr => (addr, 0x80#8)
    cmd := { Command.idle with buf := { present := true, len := 10, base := 0 } } }

/-- Settles O20: no other operation's meaning names the bit, and every reader shows it on an endless buffer. -/
theorem strictBitReadByReadersOnly : Obligations.StrictBitReadByReadersOnly :=
  ⟨fun _ _ _ => ⟨rfl, rfl, rfl, rfl, rfl, rfl, rfl, rfl, rfl⟩,
    ⟨endlessBuffer, by decide⟩, ⟨endlessBuffer, by decide⟩, ⟨endlessBuffer, by decide⟩, ⟨endlessBuffer, by decide⟩⟩

/-! ## The count of a write (R61) -/

/-- More than `k` bytes are needed exactly when the value reaches `2^(7k)` (R61). -/
theorem lt_varintLen_iff {w : Nat} (v : BitVec w) {k : Nat} (hk : 1 ≤ k) : k < varintLen v ↔ 2 ^ (7 * k) ≤ v.toNat := by
  rw [← Nat.not_le, varintLen_le_iff v hk, Nat.not_lt]

/-- A writer that answers OK counts the bytes of the encoding (R100). -/
theorem varintWrite_count {w cap : Nat} {v : BitVec w} {s t : State} {r : Response} (hw : w ≤ 7 * cap) (hc : 1 ≤ cap)
    (hcap : cap ≤ 10) (h : varintWrite cap v s = .next t) (hr : t.rsp = some r) (hok : r.status = .ok) :
    r.count.toNat = varintLen v := by
  have hlen := varintLen_le_cap v hw hc
  rcases varintWrite_next hw hc h with rfl | ⟨-, -, -, rfl⟩ <;> obtain rfl := Option.some.inj hr
  · exact absurd hok (by simp)
  · rw [BitVec.toNat_ofNat]
    omega

/-- Settles O37: the count is the length of the encoding, of which R61 gives the bounds. -/
theorem writeCountThresholds : Obligations.WriteCountThresholds := by
  refine writers_of fun w cap value op hw hc hcap hop b s t r h hr hok => ?_
  rw [hop] at h
  have hpos := varintLen_pos (value s.cmd)
  rw [varintWrite_count hw hc hcap h hr hok]
  exact ⟨hpos, (varintLen_le_iff _ hpos).1 (Nat.le_refl _), fun h1 => (lt_varintLen_iff _ (by omega)).1 (by omega)⟩

end Sys2Proof.Machine

/-! # Varint read (spec/40_varint_read.md) -/

namespace Sys2Proof.Machine

open Sys2Proof.Claims

/-! ## The value of a sequence, bit by bit (R59, R82) -/

/-- The chunks behind a sequence stand above its own (R59). -/
theorem payload_append (front back : List Byte) :
    payload (front ++ back) = 2 ^ (7 * front.length) * payload back + payload front := by
  induction front with
  | nil => simp [payload]
  | cons b front ih =>
    rw [List.cons_append, payload_cons, payload_cons, ih, List.length_cons, Nat.mul_succ, Nat.pow_add]
    ring

theorem payload_lt (bs : List Byte) : payload bs < 2 ^ (7 * bs.length) := by
  induction bs with
  | nil => simp [payload]
  | cons b bs ih =>
    have hchunk : (chunkOf b).toNat < 128 := (chunkOf b).isLt
    rw [payload_cons, List.length_cons, Nat.mul_succ, Nat.pow_add]
    omega

theorem payload_singleton_testBit (x : Byte) (j : Nat) : (payload [x]).testBit j = (decide (j < 7) && x.getLsbD j) := by
  rw [payload_cons, show payload [] = 0 from rfl, Nat.mul_zero, Nat.add_zero, BitVec.testBit_toNat, chunkOf,
    BitVec.getLsbD_extractLsb', Nat.zero_add]

/-- The bits of a sequence: those of the front, and above them the chunk of the last byte, as far as the width reaches. -/
theorem getLsbD_sequenceValue_concat (w : Nat) (front : List Byte) (x : Byte) (j : Nat) :
    (sequenceValue w (front ++ [x])).getLsbD j = (decide (j < w) &&
      if j < 7 * front.length then (payload front).testBit j
      else decide (j - 7 * front.length < 7) && x.getLsbD (j - 7 * front.length)) := by
  rw [sequenceValue, BitVec.getLsbD_ofNat, payload_append, Nat.testBit_two_pow_mul_add _ (payload_lt front),
    payload_singleton_testBit]

/-- Last bytes that agree on the bits that fit give the same value (R82). -/
theorem sequenceValue_concat_congr {w : Nat} {front : List Byte} {x y : Byte}
    (h : ∀ j < w - 7 * front.length, x.getLsbD j = y.getLsbD j) :
    sequenceValue w (front ++ [x]) = sequenceValue w (front ++ [y]) := by
  refine BitVec.eq_of_getLsbD_eq fun j hj => ?_
  rw [getLsbD_sequenceValue_concat, getLsbD_sequenceValue_concat]
  split
  next => rfl
  next hfront => rw [h (j - 7 * front.length) (by omega)]

/-- The last byte's bits that fit are the top bits of the value (R82). -/
theorem getLsbD_sequenceValue_last {w j : Nat} {front : List Byte} (x : Byte) (hw : w ≤ 7 * front.length + 7)
    (hj : j < w - 7 * front.length) :
    (sequenceValue w (front ++ [x])).getLsbD (7 * front.length + j) = x.getLsbD j := by
  rw [getLsbD_sequenceValue_concat, if_neg (by omega), Nat.add_sub_cancel_left, decide_eq_true (by omega),
    decide_eq_true (by omega), Bool.true_and, Bool.true_and]

/-! ## Padding with zero chunks (R88) -/

theorem chunkOf_or_flag (b : Byte) : chunkOf (b ||| 0x80#8) = chunkOf b := by
  simp [chunkOf, BitVec.extractLsb'_or]

theorem continues_or_flag (b : Byte) : continues (b ||| 0x80#8) = true := by simp [continues]

/-- Zero chunks have the value 0. -/
theorem payload_padding (pad : Nat) : payload (List.replicate pad 0x80#8 ++ [0x00#8]) = 0 := by
  induction pad with
  | zero => rfl
  | succ pad ih => rw [List.replicate_succ, List.cons_append, payload_cons, ih]; rfl

/-- Padding changes no value (R88). -/
theorem sequenceValue_padded (w : Nat) (front : List Byte) (last : Byte) (pad : Nat) :
    sequenceValue w (front ++ [last ||| 0x80#8] ++ List.replicate pad 0x80#8 ++ [0x00#8]) =
      sequenceValue w (front ++ [last]) := by
  have hlast : payload ((last ||| 0x80#8) :: (List.replicate pad 0x80#8 ++ [0x00#8])) = payload [last] := by
    rw [payload_cons, payload_cons, payload_padding, chunkOf_or_flag]
    rfl
  rw [sequenceValue, sequenceValue, List.append_assoc, List.append_assoc, List.singleton_append, payload_append, hlast,
    ← payload_append]

theorem terminated_cons (b : Byte) {rest : List Byte} (h : rest ≠ []) :
    terminated (b :: rest) = (continues b && terminated rest) := by
  cases rest with
  | nil => exact absurd rfl h
  | cons b' rest => rfl

/-- Behind bytes with bit 7 set, the last byte decides whether a sequence has ended (R59). -/
theorem terminated_concat {front : List Byte} (h : ∀ b ∈ front, continues b = true) (x : Byte) :
    terminated (front ++ [x]) = !continues x := by
  induction front with
  | nil => rfl
  | cons b front ih =>
    rw [List.cons_append, terminated_cons b (by simp), h b (by simp), Bool.true_and]
    exact ih fun c hc => h c (by simp [hc])

/-! ## How a read command ends -/

/-- What is proved of the shared read operation, at a width that its cap covers and the response carries, holds of all four
readers (R16, R81, R83, R121, R123). -/
theorem readers_of_width {P : Nat → Nat → Op → Prop}
    (h : ∀ w cap op, w ≤ 64 → w ≤ 7 * cap → 1 ≤ cap → cap ≤ 10 → (∀ b s, exec (op b) s = varintRead w cap b s) →
      P w cap op) : Readers P :=
  ⟨h 32 5 _ (by norm_num) (by norm_num) (by norm_num) (by norm_num) fun _ _ => rfl,
    h 64 10 _ (by norm_num) (by norm_num) (by norm_num) (by norm_num) fun _ _ => rfl,
    h 32 5 _ (by norm_num) (by norm_num) (by norm_num) (by norm_num) fun _ _ => rfl,
    h 64 10 _ (by norm_num) (by norm_num) (by norm_num) (by norm_num) fun _ _ => rfl⟩

section read
variable {w cap : Nat} {strict : Bool} {s : State} {bs : List Byte} (hs : CanRead s)
include hs

theorem varintRead_of_canRead : varintRead w cap strict s = readLoop w strict cap 0 0 s :=
  withReadBuffer_truthful _ hs.1 (truthfulRead_iff.2 hs.2)

/-- A varint that ends inside the declared length and the cap (R84). -/
theorem varintRead_terminated (hterm : terminated bs = true) (hcap : bs.length ≤ cap) (hlen : bs.length ≤ s.cmd.buf.len)
    (hb : beginsWith s bs) :
    varintRead w cap strict s =
      .next (answered s ⟨.ok, (sequenceValue w bs).setWidth 64, BitVec.ofNat 8 bs.length⟩ (readsTo bs.length)) := by
  rw [varintRead_of_canRead hs, readLoop_terminated w strict hterm hcap (by omega) hs.2 (by simpa [beginsWith] using hb),
    readsTo_eq]
  simp [answered, respond, zext64]

/-- The loop behind bytes that all have bit 7 set (R80). -/
theorem varintRead_continuing (hall : ∀ b ∈ bs, continues b = true) (hcap : bs.length ≤ cap)
    (hlen : bs.length ≤ s.cmd.buf.len) (hb : beginsWith s bs) :
    varintRead w cap strict s =
      readLoop w strict (cap - bs.length) bs.length (sequenceValue w bs) (s.withAccesses (readsTo bs.length)) := by
  rw [varintRead_of_canRead hs, readLoop_continuing w strict hall hcap (by omega) hs.2 (by simpa [beginsWith] using hb),
    readsTo_eq]
  simp

/-- Every byte up to the cap has bit 7 set (R85, R86). -/
theorem varintRead_at_cap (hall : ∀ b ∈ bs, continues b = true) (hcap : bs.length = cap) (hlen : cap ≤ s.cmd.buf.len)
    (hb : beginsWith s bs) :
    varintRead w cap strict s = .next (answered s
      (if strict then ⟨.truncated, 0, 0⟩ else ⟨.ok, (sequenceValue w bs).setWidth 64, BitVec.ofNat 8 cap⟩)
      (readsTo cap)) := by
  subst hcap
  rw [varintRead_continuing hs hall (Nat.le_refl _) hlen hb, Nat.sub_self]
  cases strict <;> rfl

/-- A varint that has not ended inside a declared length below the cap (R87). -/
theorem varintRead_short (hcap : s.cmd.buf.len < cap) (hcont : continuesTo s s.cmd.buf.len) :
    varintRead w cap strict s = .next (answered s ⟨.invalidArgument, 0, 0⟩ (readsTo s.cmd.buf.len)) := by
  obtain ⟨bs, hlen, hb⟩ := exists_bytes s.cmd.buf.len hs.2
  have hall : ∀ b ∈ bs, continues b = true := fun b hmem => by
    obtain ⟨off, hoff⟩ := List.mem_iff_getElem?.1 hmem
    obtain ⟨c, hc, hcc⟩ := hcont off (hlen ▸ (List.getElem?_eq_some_iff.1 hoff).1)
    obtain rfl := Option.some.inj ((hb off b hoff).symm.trans hc)
    exact hcc
  obtain ⟨left, hleft⟩ : ∃ left, cap - bs.length = left + 1 := ⟨cap - bs.length - 1, by omega⟩
  rw [varintRead_continuing hs hall (by omega) (by omega) hb, hleft, hlen, readLoop, if_pos (Nat.le_refl _), raise_eq]
  rfl

/-- The last possible byte is reached: it ends the varint or not, and its chunk counts either way (R82, R84 to R86). -/
theorem varintRead_last {front : List Byte} {x : Byte} (hfront : ∀ z ∈ front, continues z = true)
    (hcap : front.length + 1 = cap) (hlen : cap ≤ s.cmd.buf.len) (hb : beginsWith s (front ++ [x])) :
    varintRead w cap strict s = .next (answered s
      (if continues x && strict then ⟨.truncated, 0, 0⟩
        else ⟨.ok, (sequenceValue w (front ++ [x])).setWidth 64, BitVec.ofNat 8 cap⟩)
      (readsTo cap)) := by
  have hl : (front ++ [x]).length = cap := by simpa using hcap
  cases hx : continues x with
  | false =>
    have hterm : terminated (front ++ [x]) = true := by rw [terminated_concat hfront, hx]; rfl
    rw [varintRead_terminated hs hterm hl.le (hl ▸ hlen) hb, hl]
    rfl
  | true =>
    have hall : ∀ z ∈ front ++ [x], continues z = true := by
      simpa [or_imp, forall_and, hx] using hfront
    rw [varintRead_at_cap hs hall hl hlen hb, Bool.true_and]
end read

/-- Settles O28: the loop stops at the terminator. -/
theorem readersAnswerTerminatedVarint : Obligations.ReadersAnswerTerminatedVarint :=
  readers_of fun _ _ _ _ hop b _ s hs hterm hcap hlen hb =>
    (hop b s).trans (varintRead_terminated hs hterm hcap hlen hb)

/-- Settles O29: no byte stops the loop, and the strict bit chooses the answer at the cap. -/
theorem readersAtTheCap : Obligations.ReadersAtTheCap :=
  readers_of fun _ _ _ _ hop _ s hs hcap hall hlen hb =>
    ⟨(hop false s).trans (varintRead_at_cap hs hall hcap hlen hb),
      (hop true s).trans (varintRead_at_cap hs hall hcap hlen hb)⟩

/-- Settles O30: the declared length stops the loop before the cap does. -/
theorem readersOnShortBuffer : Obligations.ReadersOnShortBuffer :=
  readers_of fun _ _ _ _ hop b s hs hcap hcont => (hop b s).trans (varintRead_short hs hcap hcont)

/-- Settles O31: the two sequences have the same value, and the last bytes end it or not alike. -/
theorem bitsAboveTheAccumulatorAreDropped : Obligations.BitsAboveTheAccumulatorAreDropped := by
  refine readers_of_width fun w cap op hw hfit hc _ hop b front x y s s' t r hfl hfront hs hs' hcmd hlen hb hb' hxy hlow
    h hr => ?_
  rw [← hfl] at hlow ⊢
  rw [hop, varintRead_last hs hfront (by omega) hlen hb] at h
  obtain rfl := Host.Outcome.next.inj h
  obtain rfl := Option.some.inj hr
  rw [hop, varintRead_last hs' hfront (by omega) (hcmd ▸ hlen) hb', ← hxy, ← sequenceValue_concat_congr hlow]
  refine ⟨rfl, fun hok j hj => ?_⟩
  cases hstop : continues x && b with
  | true => simp [hstop] at hok
  | false =>
    rw [if_neg (by simp), BitVec.getLsbD_setWidth, getLsbD_sequenceValue_last x (by omega) hj, decide_eq_true (by omega),
      Bool.true_and]

/-- Settles O32: both sequences are terminated and have the same value. -/
theorem nonCanonicalInputIsAccepted : Obligations.NonCanonicalInputIsAccepted := by
  refine readers_of fun w cap op hcap hop b front last pad s s' t r hfront hlast hpad hs hs' hlen hlen' hb hb' h hr => ?_
  have hterm : terminated (front ++ [last]) = true := by rw [terminated_concat hfront, hlast]; rfl
  have hfront' : ∀ z ∈ front ++ [last ||| 0x80#8] ++ List.replicate pad 0x80#8, continues z = true := by
    intro z hz
    simp only [List.mem_append, List.mem_singleton, List.mem_replicate] at hz
    obtain (hz | rfl) | ⟨-, rfl⟩ := hz
    · exact hfront z hz
    · exact continues_or_flag last
    · rfl
  have hterm' : terminated (front ++ [last ||| 0x80#8] ++ List.replicate pad 0x80#8 ++ [0x00#8]) = true :=
    terminated_concat hfront' 0x00#8
  have hl : (front ++ [last]).length = front.length + 1 := by simp
  have hl' : (front ++ [last ||| 0x80#8] ++ List.replicate pad 0x80#8 ++ [0x00#8]).length = front.length + pad + 2 := by
    simp; omega
  rw [hop, varintRead_terminated hs hterm (by omega) (hl ▸ hlen) hb] at h
  obtain rfl := Host.Outcome.next.inj h
  obtain rfl := Option.some.inj hr
  rw [hop, varintRead_terminated hs' hterm' (hl' ▸ hpad) (hl' ▸ hlen') hb', sequenceValue_padded, hl, hl',
    BitVec.toNat_ofNat, Nat.mod_eq_of_lt (by omega), show front.length + 1 + pad + 1 = front.length + pad + 2 by omega]
  rfl

/-! ## A value comes back (R90) -/

/-- The buffer begins with the bytes that an answer has stored there. -/
theorem beginsWith_after (s : State) (r : Response) (as : List Access) (bs : List Byte) :
    beginsWith (s.after r as bs) bs := fun i b h => by
  rw [bufferByte_after, if_pos (List.getElem?_eq_some_iff.1 h).1, h]

/-- A command on the same buffer sees the bytes that are there. -/
theorem beginsWith_accept {c : Command} {s : State} {bs : List Byte} (hc : c.buf.base = s.cmd.buf.base)
    (h : beginsWith s bs) : beginsWith (accept c s) bs := fun i b hi => by
  rw [← h i b hi, bufferByte, bufferByte, bufferAddr_eq, bufferAddr_eq, accept_cmd, accept_mem, hc]

/-- A writer that answers OK has stored the encoding (R100). -/
theorem varintWrite_next_ok {w cap : Nat} {v : BitVec w} {s t : State} {r : Response} (hw : w ≤ 7 * cap) (hc : 1 ≤ cap)
    (h : varintWrite cap v s = .next t) (hr : t.rsp = some r) (hok : r.status = .ok) :
    t = s.after ⟨.ok, 0, BitVec.ofNat 8 (varintLen v)⟩ (writesOf v) (encoding v) := by
  rcases varintWrite_next hw hc h with rfl | ⟨-, -, -, rfl⟩
  · obtain rfl := Option.some.inj hr
    exact absurd hok (by simp)
  · rfl

/-- Any reader on a buffer that begins with an encoding inside its declared length answers the value (R59, R84, R90). -/
theorem varintRead_encoding {w cap : Nat} {strict : Bool} {v : BitVec w} {s : State} (hw : w ≤ 7 * cap) (hc : 1 ≤ cap)
    (hs : CanRead s) (hlen : varintLen v ≤ s.cmd.buf.len) (hb : beginsWith s (encoding v)) :
    varintRead w cap strict s =
      .next (answered s ⟨.ok, v.setWidth 64, BitVec.ofNat 8 (varintLen v)⟩ (readsTo (varintLen v))) := by
  have hl := encoding_length v
  rw [varintRead_terminated hs (terminated_encoding _ v (Nat.le_refl _)) (hl ▸ varintLen_le_cap v hw hc) (hl ▸ hlen) hb,
    sequenceValue_encoding _ v (Nat.le_refl _), hl]

section roundTrip
variable {w cap : Nat} {c : Command} {s t : State} {b : Bool} {rest : List HostAct} (hw : w ≤ 7 * cap) (hc : 1 ≤ cap)
  (hrst : s.rst = false) (hpend : s.pending = .issue c :: rest)
include hw hc hrst hpend

/-- The step on a write command that ends OK: the encoding lies in the buffer, and the host goes on (R10, R100). -/
theorem step_write_ok {value : Command → BitVec w} {write : Op} {r : Response} (hcap : cap ≤ 10)
    (hwrite : ∀ b s, exec (write b) s = varintWrite cap (value s.cmd) s) (hd : decodeWord c.word = .ok (write b))
    (h : step s = .next t) (hr : t.rsp = some r) (hok : r.status = .ok) :
    t.rst = false ∧ t.pending = rest ∧ t.cmd = c ∧ r.count.toNat = varintLen (value c) ∧
      beginsWith t (encoding (value c)) := by
  rw [stepRunsDecodedCommand s c rest (write b) hpend hrst hd, hwrite] at h
  have hcount := varintWrite_count hw hc hcap h hr hok
  obtain rfl := varintWrite_next_ok hw hc h hr hok
  exact ⟨hrst, rfl, rfl, hcount, beginsWith_after _ _ _ _⟩

/-- The step on a read command whose buffer begins with an encoding: the value is answered, and memory stays. -/
theorem step_read_encoding {v : BitVec w} {read : Op} (hread : ∀ b s, exec (read b) s = varintRead w cap b s)
    (hd : decodeWord c.word = .ok (read b)) (hs : CanRead (accept c s)) (hlen : varintLen v ≤ c.buf.len)
    (hb : beginsWith (accept c s) (encoding v)) :
    ∃ u, step s = .next u ∧ u.rsp = some ⟨.ok, v.setWidth 64, BitVec.ofNat 8 (varintLen v)⟩ ∧ u.mem = s.mem := by
  have hread' := varintRead_encoding (strict := b) (s := accept c { s with pending := rest }) hw hc hs hlen hb
  exact ⟨_, (stepRunsDecodedCommand s c rest (read b) hpend hrst hd).trans ((hread b _).trans hread'), rfl, rfl⟩
end roundTrip

/-- A writer and a reader of one width undo each other, whatever value of the command the writer takes (R90, R127). -/
theorem roundTrip_of_varint {w cap : Nat} {value : Command → BitVec w} {write read : Op} (hw : w ≤ 7 * cap) (hc : 1 ≤ cap)
    (hcap : cap ≤ 10) (hwrite : ∀ b s, exec (write b) s = varintWrite cap (value s.cmd) s)
    (hread : ∀ b s, exec (read b) s = varintRead w cap b s) :
    RoundTrip (fun c => (value c).setWidth 64) write read := by
  intro s t c1 c2 b1 b2 rest r hrst hpend hd1 hd2 hstep hr hok hp hbase hlen hreadable
  obtain ⟨hrst', hpend', hcmd, hcount, hb⟩ := step_write_ok hw hc hrst hpend hcap hwrite hd1 hstep hr hok
  have hn : r.count = BitVec.ofNat 8 (varintLen (value c1)) := by simp [← hcount]
  rw [hn]
  exact step_read_encoding hw hc hrst' hpend' hread hd2 ⟨hp, hreadable⟩ (hcount ▸ hlen)
    (beginsWith_accept (hcmd ▸ hbase) hb)

/-- Settles O33: the write leaves the encoding, and the read answers the value it encodes. -/
theorem unsignedRoundTrip : Obligations.UnsignedRoundTrip := by
  refine ⟨roundTrip_of_varint (cap := 5) (by norm_num) (by norm_num) (by norm_num) (fun _ _ => rfl) fun _ _ => rfl, ?_⟩
  have h64 : RoundTrip (fun c => c.a.setWidth 64) .writeVarintU64 .readVarintU64 :=
    roundTrip_of_varint (cap := 10) (by norm_num) (by norm_num) (by norm_num) (fun _ _ => rfl) fun _ _ => rfl
  simpa only [BitVec.setWidth_eq] using h64

end Sys2Proof.Machine

/-! # Varint write (spec/41_varint_write.md) -/

namespace Sys2Proof.Machine

open Sys2Proof.Claims

/-! ## How a write command ends -/

section write
variable {w cap : Nat} {v : BitVec w} {s : State}

/-- An absent buffer is an error before any access (R105). -/
theorem varintWrite_absent (hp : s.cmd.buf.present = false) :
    varintWrite cap v s = .next (answered s ⟨.invalidArgument, 0, 0⟩ []) := by
  rw [varintWrite, withWriteBuffer_absent _ hp]
  simp [answered, respond]

/-- A present buffer that is not all the caller's has no meaning (R194). -/
theorem varintWrite_untruthful (hp : s.cmd.buf.present = true) (ht : truthfulWrite s = false) :
    varintWrite cap v s = .refused .untruthfulBuffer := by
  simp [varintWrite, withWriteBuffer, hp, ht]

/-- A buffer shorter than the encoding is an error before any access (R105). -/
theorem varintWrite_short (hs : CanWrite s) (hlen : s.cmd.buf.len < varintLen v) :
    varintWrite cap v s = .next (answered s ⟨.invalidArgument, 0, 0⟩ []) := by
  rw [varintWrite, withWriteBuffer_truthful _ hs.1 (truthfulWrite_iff.2 hs.2), lengthStatus, if_pos hlen]
  simp [answered, respond]

/-- A buffer that the encoding fits in receives it (R100, R103). -/
theorem varintWrite_fits (hw : w ≤ 7 * cap) (hc : 1 ≤ cap) (hs : CanWrite s) (hlen : varintLen v ≤ s.cmd.buf.len) :
    varintWrite cap v s =
      .next (s.after ⟨.ok, 0, BitVec.ofNat 8 (varintLen v)⟩ (writesOf v) (encoding v)) :=
  varintWrite_ok hw hc hs.1 (truthfulWrite_iff.2 hs.2) hlen

/-- The only refusal of a writer is that of an untruthful buffer: the loop ends before its cap (R104, R194). -/
theorem varintWrite_refused {e : Refusal} (hw : w ≤ 7 * cap) (hc : 1 ≤ cap) (h : varintWrite cap v s = .refused e) :
    e = .untruthfulBuffer := by
  rcases varintWrite_cases (s := s) (v := v) hw hc with ⟨-, he⟩ | ⟨-, -, he⟩ | ⟨-, -, -, he⟩ | ⟨-, -, -, he⟩ <;>
    rw [he] at h <;> cases h
  rfl

theorem varintWrite_ne_truncated {t : State} {r : Response} (hw : w ≤ 7 * cap) (hc : 1 ≤ cap)
    (h : varintWrite cap v s = .next t) (hr : t.rsp = some r) : r.status ≠ .truncated := by
  rcases varintWrite_next hw hc h with rfl | ⟨-, -, -, rfl⟩ <;> obtain rfl := Option.some.inj hr <;> simp

end write

/-! ## The bytes that a write leaves (R103) -/

theorem getElem?_encoding {w i : Nat} {v : BitVec w} (hi : i < varintLen v) :
    (encoding v)[i]? = some (encodedByte v i) := by
  simp [encoding, hi]

/-- Byte `i` of the encoding lies at offset `i` (R103). -/
theorem bufferByte_after_encoding {w i : Nat} {v : BitVec w} (s : State) (r : Response) (as : List Access)
    (hi : i < varintLen v) : bufferByte (s.after r as (encoding v)) i = some (encodedByte v i) := by
  rw [bufferByte_after, encoding_length, if_pos hi, getElem?_encoding hi]

/-- The state after a write is what the closed form says of it (R103). -/
theorem wrote_after {w : Nat} (s : State) (v : BitVec w) :
    Wrote s (s.after ⟨.ok, 0, BitVec.ofNat 8 (varintLen v)⟩ (writesOf v) (encoding v)) v := by
  refine ⟨fun i hi => bufferByte_after_encoding s _ _ hi, fun addr haddr => ?_, rfl⟩
  change Memory.byteAt (storeBytes s.mem s.cmd.buf.base (encoding v)) addr = _
  rw [byteAt_storeBytes, encoding_length, if_neg (by omega)]

/-- Settles O34: the write loop stores the encoding, byte for byte. -/
theorem writersStoreTheEncoding : Obligations.WritersStoreTheEncoding :=
  writers_of fun _ _ _ _ hw hc _ hop b s hs hlen =>
    ⟨_, (hop b s).trans (varintWrite_fits hw hc hs hlen), wrote_after s _⟩

theorem varintLen_zero {w : Nat} : varintLen (0 : BitVec w) = 1 := if_pos rfl

/-- 0 is encoded as the single byte 0 (R61, R107). -/
theorem encoding_zero {w : Nat} : encoding (0 : BitVec w) = [0x00#8] := by
  rw [encoding, varintLen_zero, List.range_one, List.map_singleton, encodedByte_zero]
  simp [varintByte, trunc]

/-- Settles O35: what the buffer lacks is found out before the loop begins, and a buffer as long as the cap lacks
nothing. -/
theorem writersCheckLengthFirst : Obligations.WritersCheckLengthFirst := by
  refine writers_of fun w cap value op hw hc _ hop b s => ?_
  rw [hop]
  refine ⟨varintWrite_absent, varintWrite_short, fun hs hlen hv => ?_, fun hs hlen => ?_⟩
  · have hfits : varintLen (value s.cmd) ≤ s.cmd.buf.len := by rw [hv, varintLen_zero, hlen]
    refine ⟨_, varintWrite_fits hw hc hs hfits, ?_, ?_⟩
    · rw [hv, varintLen_zero]
      rfl
    · rw [hv, bufferByte_after, encoding_zero]
      rfl
  · exact ⟨_, _, varintWrite_fits hw hc hs ((varintLen_le_cap _ hw hc).trans hlen), rfl, rfl⟩

/-- Bit 7 is set on every byte of an encoding but the last (R103). -/
theorem continues_encodedByte {w : Nat} (v : BitVec w) (i : Nat) :
    continues (encodedByte v i) = decide (i + 1 < varintLen v) := continues_varintByte _ _

/-- Settles O36: the loop ends at the last byte of the encoding, inside the cap, and that byte has bit 7 clear. -/
theorem writeCapIsNeverReached : Obligations.WriteCapIsNeverReached := by
  refine writers_of fun w cap value op hw hc hcap hop b s => ?_
  rw [hop]
  refine ⟨fun h => by simpa using varintWrite_refused hw hc h, fun t r h hr => ⟨varintWrite_ne_truncated hw hc h hr,
    fun hok => ⟨encodedByte (value s.cmd) (varintLen (value s.cmd) - 1), ?_, ?_⟩⟩⟩
  · have hpos := varintLen_pos (value s.cmd)
    rw [varintWrite_count hw hc hcap h hr hok, varintWrite_next_ok hw hc h hr hok]
    exact bufferByte_after_encoding s _ _ (by omega)
  · rw [continues_encodedByte]
    exact decide_eq_false (by omega)

/-! ## No sequence is shorter (R107) -/

theorem toNat_sequenceValue_le (w : Nat) (bs : List Byte) : (sequenceValue w bs).toNat ≤ payload bs :=
  (BitVec.toNat_ofNat _ _).trans_le (Nat.mod_le _ _)

/-- A sequence of `n` bytes has a value that `n` bytes suffice for. -/
theorem varintLen_sequenceValue_le (w : Nat) {bs : List Byte} (h : bs ≠ []) :
    varintLen (sequenceValue w bs) ≤ bs.length :=
  (varintLen_le_iff _ (List.length_pos_iff.2 h)).2 ((toNat_sequenceValue_le w bs).trans_lt (payload_lt bs))

/-- A last byte 0 adds nothing to the value. -/
theorem sequenceValue_concat_zero (w : Nat) (front : List Byte) :
    sequenceValue w (front ++ [0x00#8]) = sequenceValue w front := by
  rw [sequenceValue, payload_append, show payload [0x00#8] = 0 from rfl, Nat.mul_zero, Nat.zero_add, sequenceValue]

/-- The encoding of a value other than 0 does not end in 0: without that byte it would be a shorter sequence of the same
value (R107). -/
theorem getLast?_encoding_ne_zero {w : Nat} {v : BitVec w} (hv : v ≠ 0) : (encoding v).getLast? ≠ some 0x00#8 := by
  intro h
  obtain ⟨front, hfront⟩ := List.getLast?_eq_some_iff.1 h
  have hval : sequenceValue w front = v := by
    rw [← sequenceValue_concat_zero, ← hfront, sequenceValue_encoding _ v (Nat.le_refl _)]
  have hne : front ≠ [] := by
    rintro rfl
    exact hv (hval.symm.trans (sequenceValue_nil w))
  have hshort := varintLen_sequenceValue_le w hne
  rw [hval, ← encoding_length v, hfront, List.length_append, List.length_singleton] at hshort
  omega

/-- Settles O38: the bytes are the encoding, and as many as the value needs. -/
theorem writersOutputIsShortest : Obligations.WritersOutputIsShortest := by
  refine writers_of fun w cap value op hw hc hcap hop b s t r h hr hok => ?_
  rw [hop] at h
  have hcount := varintWrite_count hw hc hcap h hr hok
  obtain rfl := varintWrite_next_ok hw hc h hr hok
  generalize value s.cmd = v at *
  refine ⟨encoding v, (encoding_length v).trans hcount.symm, beginsWith_after _ _ _ _,
    terminated_encoding _ v (Nat.le_refl _), sequenceValue_encoding _ v (Nat.le_refl _), ?_, getLast?_encoding_ne_zero,
    fun bs' hterm hval => ?_⟩
  · rintro rfl
    exact encoding_zero
  · have hne : bs' ≠ [] := by
      rintro rfl
      cases hterm
    rw [encoding_length, ← hval]
    exact varintLen_sequenceValue_le w hne

/-! ## The width of a value does not show (R106) -/

section congr
variable {w w' : Nat} {v : BitVec w} {v' : BitVec w'} (h : v.toNat = v'.toNat)
include h

theorem varintLen_congr : varintLen v = varintLen v' :=
  Nat.le_antisymm
    ((varintLen_le_iff v (varintLen_pos v')).2 (h ▸ (varintLen_le_iff v' (varintLen_pos v')).1 (Nat.le_refl _)))
    ((varintLen_le_iff v' (varintLen_pos v)).2 (h ▸ (varintLen_le_iff v (varintLen_pos v)).1 (Nat.le_refl _)))

theorem encodedByte_congr (i : Nat) : encodedByte v i = encodedByte v' i := by
  rw [encodedByte, encodedByte, varintLen_congr h, BitVec.extractLsb', BitVec.extractLsb', h]

theorem encoding_congr : encoding v = encoding v' := by
  rw [encoding, encoding, varintLen_congr h, funext (encodedByte_congr h)]

/-- Writers of two widths do the same on equal values, whether the buffer is absent, untruthful, short or long enough. -/
theorem varintWrite_congr {cap cap' : Nat} (hw : w ≤ 7 * cap) (hc : 1 ≤ cap) (hw' : w' ≤ 7 * cap') (hc' : 1 ≤ cap')
    (s : State) : varintWrite cap v s = varintWrite cap' v' s := by
  have hl := varintLen_congr h
  cases hp : s.cmd.buf.present with
  | false => rw [varintWrite_absent hp, varintWrite_absent hp]
  | true =>
    cases ht : truthfulWrite s with
    | false => rw [varintWrite_untruthful hp ht, varintWrite_untruthful hp ht]
    | true =>
      have hs : CanWrite s := ⟨hp, truthfulWrite_iff.1 ht⟩
      rcases Nat.lt_or_ge s.cmd.buf.len (varintLen v) with hlen | hlen
      · rw [varintWrite_short hs hlen, varintWrite_short hs (hl ▸ hlen)]
      · rw [varintWrite_fits hw hc hs hlen, varintWrite_fits hw' hc' hs (hl ▸ hlen), hl, writesOf_eq, writesOf_eq,
          encoding_congr h]
end congr

/-- Settles O39: below 2^32 operand A and its low half are the same number. -/
theorem writersAgreeBelow2Pow32 : Obligations.WritersAgreeBelow2Pow32 := by
  intro s b b' h
  have hval : (operandFull s.cmd).toNat = (operandLow s.cmd).toNat := by
    rw [operandLow, BitVec.extractLsb'_toNat, Nat.shiftRight_zero, Nat.mod_eq_of_lt h, operandFull]
  exact varintWrite_congr hval (cap := 10) (cap' := 5) (by norm_num) (by norm_num) (by norm_num) (by norm_num) s

end Sys2Proof.Machine

/-! # Varint, signed (spec/42_varint_signed.md) -/

namespace Sys2Proof.Machine

open Sys2Proof.Claims

/-! ## The adapter changes no bit (R120) -/

@[simp] theorem asUnsigned_eq {w : Nat} (p : BitVec w) : asUnsigned p = p := rfl

/-- R121: the signed reader is the shared read operation at 32 bits. -/
theorem exec_readVarintI32 (b : Bool) (s : State) :
    exec (.readVarintI32 b) s = varintRead Config.w32 Config.cap32 b s := rfl

/-- R123. -/
theorem exec_readVarintI64 (b : Bool) (s : State) :
    exec (.readVarintI64 b) s = varintRead Config.w64 Config.cap64 b s := rfl

/-- R122: the signed writer is the shared write operation on the low half of operand A, as it stands. -/
theorem exec_writeVarintI32 (b : Bool) (s : State) :
    exec (.writeVarintI32 b) s = varintWrite Config.cap32 (operandLow s.cmd) s := by
  rw [exec, execWriteVarintI32, asUnsigned_eq]

/-- R124. -/
theorem exec_writeVarintI64 (b : Bool) (s : State) :
    exec (.writeVarintI64 b) s = varintWrite Config.cap64 (operandFull s.cmd) s := by
  rw [exec, execWriteVarintI64, asUnsigned_eq]

/-- Settles O40: both are the shared read operation at the same width and cap. -/
theorem signedReadersAreUnsignedReaders : Obligations.SignedReadersAreUnsignedReaders :=
  fun s b => ⟨exec_readVarintI32 b s, exec_readVarintI64 b s⟩

/-- Settles O41: both are the shared write operation on the same bits. -/
theorem signedWritersAreUnsignedWriters : Obligations.SignedWritersAreUnsignedWriters :=
  fun s b => ⟨exec_writeVarintI32 b s, exec_writeVarintI64 b s⟩

/-! ## Signed patterns come back (R127) -/

/-- Any writer and any reader of the 32-bit datapath undo each other. -/
theorem roundTrip32 {write read : Op}
    (hwrite : ∀ b s, exec (write b) s = varintWrite Config.cap32 (operandLow s.cmd) s)
    (hread : ∀ b s, exec (read b) s = varintRead Config.w32 Config.cap32 b s) :
    RoundTrip (fun c => (c.a.extractLsb' 0 32).setWidth 64) write read :=
  roundTrip_of_varint (value := operandLow) (by norm_num) (by norm_num) (by norm_num) hwrite hread

/-- Any writer and any reader of the 64-bit datapath undo each other. -/
theorem roundTrip64 {write read : Op}
    (hwrite : ∀ b s, exec (write b) s = varintWrite Config.cap64 (operandFull s.cmd) s)
    (hread : ∀ b s, exec (read b) s = varintRead Config.w64 Config.cap64 b s) :
    RoundTrip (fun c => c.a) write read := by
  have h : RoundTrip (fun c => c.a.setWidth 64) write read :=
    roundTrip_of_varint (value := operandFull) (by norm_num) (by norm_num) (by norm_num) hwrite hread
  simpa only [BitVec.setWidth_eq] using h

/-- Settles O44: signed and unsigned operations of one width are one datapath. -/
theorem signedRoundTrip : Obligations.SignedRoundTrip :=
  ⟨roundTrip32 exec_writeVarintI32 exec_readVarintI32, roundTrip64 exec_writeVarintI64 exec_readVarintI64,
    roundTrip32 exec_writeVarintI32 fun _ _ => rfl, roundTrip32 (fun _ _ => rfl) exec_readVarintI32,
    roundTrip64 exec_writeVarintI64 fun _ _ => rfl, roundTrip64 (fun _ _ => rfl) exec_readVarintI64⟩

/-! ## Negative values (R125) -/

/-- A value with a bit set in the chunk of the last byte that its width allows takes all the bytes (R61). -/
theorem varintLen_of_getLsbD {w k j : Nat} {v : BitVec w} (hk : 1 ≤ k) (hj : 7 * k ≤ j) (hw : w ≤ 7 * (k + 1))
    (hbit : v.getLsbD j = true) : varintLen v = k + 1 := by
  have hge : 2 ^ (7 * k) ≤ v.toNat :=
    (Nat.pow_le_pow_right (by omega) hj).trans (Nat.ge_two_pow_of_testBit (by rwa [BitVec.testBit_toNat]))
  have hgt : k < varintLen v := (lt_varintLen_iff v hk).2 hge
  have hle : varintLen v ≤ k + 1 := varintLen_le_cap v hw (by omega)
  omega

/-- A value as long as the cap is written on a buffer of the cap's length, and is an error on a shorter one (R105). -/
theorem varintWrite_of_varintLen_eq_cap {w cap : Nat} {v : BitVec w} {s : State} (hw : w ≤ 7 * cap) (hc : 1 ≤ cap)
    (hs : CanWrite s) (hv : varintLen v = cap) :
    (cap ≤ s.cmd.buf.len → ∃ t, varintWrite cap v s = .next t ∧ t.rsp = some ⟨.ok, 0, BitVec.ofNat 8 cap⟩) ∧
      (s.cmd.buf.len < cap → varintWrite cap v s = .next (answered s ⟨.invalidArgument, 0, 0⟩ [])) :=
  ⟨fun hlen => ⟨_, varintWrite_fits hw hc hs (hv ▸ hlen), by rw [hv]; rfl⟩, fun hlen => varintWrite_short hs (hv ▸ hlen)⟩

/-- Settles O42: the top bit lies in the chunk of byte 4 of a 32-bit value and of byte 9 of a 64-bit value. -/
theorem negativeValuesTakeFullWidth : Obligations.NegativeValuesTakeFullWidth := by
  intro s b hs
  rw [exec_writeVarintI32, exec_writeVarintI64]
  refine ⟨fun hneg => ?_, fun hneg => ?_⟩
  · have hbit : (operandLow s.cmd).getLsbD 31 = true := by
      rwa [operandLow, BitVec.getLsbD_extractLsb', decide_eq_true (by norm_num), Bool.true_and, Nat.zero_add]
    exact varintWrite_of_varintLen_eq_cap (by norm_num) (by norm_num) hs
      (varintLen_of_getLsbD (k := 4) (by norm_num) (by norm_num) (by norm_num) hbit)
  · exact varintWrite_of_varintLen_eq_cap (by norm_num) (by norm_num) hs
      (varintLen_of_getLsbD (k := 9) (by norm_num) (by norm_num) (by norm_num) hneg)

/-! ## A 32-bit value is never widened (R24, R126) -/

/-- A reader's `r` is a value of its width with zeros above it, whatever its status (R67, R163). -/
theorem varintRead_r {w cap : Nat} {strict : Bool} {s t : State} {r : Response} (h : varintRead w cap strict s = .next t)
    (hr : t.rsp = some r) : ∃ v : BitVec w, r.r = zext64 v := by
  obtain ⟨k, -, st, x, n, rfl, hx⟩ := varintRead_next h
  obtain rfl := Option.some.inj hr
  rcases hx with ⟨-, -, hv⟩ | ⟨-, hx, -⟩ | ⟨-, hx, -⟩
  · exact hv
  · exact ⟨0, by simpa [zext64] using hx⟩
  · exact ⟨0, by simpa [zext64] using hx⟩

/-- The upper half of a zero-extended 32-bit value is 0 (R67). -/
theorem extractLsb'_zext64_upper (v : Word32) : (zext64 v).extractLsb' 32 32 = 0 := by
  refine BitVec.eq_of_getLsbD_eq fun j hj => ?_
  simp [zext64]

/-- Another operand A alone is another command record. -/
theorem withOperands_a (s : State) (a : Word64) : withOperands s a s.cmd.b = s.withCommand { s.cmd with a := a } := rfl

/-- An operation leaves the accepted command as it is. -/
theorem exec_cmd {i : Instr} {s t : State} (h : exec i s = .next t) : t.cmd = s.cmd := by
  rw [(operationFrame i s t h).1]

/-- Settles O43: the reader's `r` is a 32-bit value, and the writer uses no more of operand A than its low half. -/
theorem signed32IsNeverWidened : Obligations.Signed32IsNeverWidened := by
  refine ⟨fun s t b r h hr => ?_, fun s t b a ha h => ?_⟩
  · rw [exec_readVarintI32] at h
    obtain ⟨v, hv⟩ := varintRead_r h hr
    rw [hv, extractLsb'_zext64_upper]
  · have huse : sameUse (.writeVarintI32 b) s.cmd { s.cmd with a := a } := ⟨ha.symm, .inl rfl⟩
    rw [withOperands_a, exec_withCommand huse, h, ← exec_cmd h, withOperands_a, replaceCommand_next]

end Sys2Proof.Machine

/-! # The type-detail header (spec/43_type_detail.md) -/

namespace Sys2Proof.Machine

open Sys2Proof.Claims

/-! ## A header is its three fields (R62)

The setters are given by masks and shifts (R134, R137). On the fields side by side a mask keeps or clears each field as
a whole, so a setter is the replacement of one field, and every law of R131 is read off the fields. -/

/-- The header `{ordinal, kind, reserved}` (R62). -/
def header (o : BitVec 24) (k res : BitVec 4) : Word32 := o ++ k ++ res

section header
variable (o o' : BitVec 24) (k k' res res' : BitVec 4)

@[simp] theorem ordinalField_header : ordinalField (header o k res) = o := by
  rw [ordinalField, header, BitVec.extractLsb'_append_eq_of_le (by norm_num), BitVec.extractLsb'_append_eq_left]

@[simp] theorem kindField_header : kindField (header o k res) = k := by
  rw [kindField, header, BitVec.extractLsb'_append_eq_of_le (by norm_num), BitVec.extractLsb'_append_eq_right]

@[simp] theorem reservedField_header : reservedField (header o k res) = res := BitVec.extractLsb'_append_eq_right

theorem header_and : header o k res &&& header o' k' res' = header (o &&& o') (k &&& k') (res &&& res') :=
  BitVec.and_append.trans (congrArg (· ++ (res &&& res')) BitVec.and_append)

theorem header_or : header o k res ||| header o' k' res' = header (o ||| o') (k ||| k') (res ||| res') :=
  BitVec.or_append.trans (congrArg (· ++ (res ||| res')) BitVec.or_append)

/-- Every 32-bit value is a header, reserved bits and unknown kinds included (R62, R65). -/
theorem header_fields (d : Word32) : header (ordinalField d) (kindField d) (reservedField d) = d := by
  have hhigh : ordinalField d ++ kindField d = d.extractLsb' 4 28 :=
    BitVec.extractLsb'_append_extractLsb'_eq_extractLsb' rfl
  have hall : d.extractLsb' 4 28 ++ reservedField d = d.extractLsb' 0 32 :=
    BitVec.extractLsb'_append_extractLsb'_eq_extractLsb' rfl
  rw [header, hhigh, hall, BitVec.extractLsb'_eq_self]

theorem shifted_kind_eq_header : k.setWidth 32 <<< 4 = header 0 k 0 := by
  simpa [header] using
    (BitVec.setWidth_append_append_eq_shiftLeft_setWidth_or (b := 0#24) (b' := k) (b'' := 0#4) (w''' := 32)).symm

theorem shifted_ordinal_eq_header : o.setWidth 32 <<< 8 = header o 0 0 := by
  simpa [header] using
    (BitVec.setWidth_append_append_eq_shiftLeft_setWidth_or (b := o) (b' := 0#4) (b'' := 0#4) (w''' := 32)).symm
end header

/-- R134: `kind_set` replaces the kind. -/
theorem withKind_eq_header (d : Word32) (k : BitVec 4) :
    withKind d k = header (ordinalField d) k (reservedField d) := by
  have hmask : 0xFFFFFF0F#32 = header (BitVec.allOnes 24) 0 (BitVec.allOnes 4) := by decide
  conv_lhs => rw [withKind, ← header_fields d, hmask, shifted_kind_eq_header, header_and, header_or]
  simp only [BitVec.and_allOnes, BitVec.and_zero, BitVec.or_zero, BitVec.zero_or, BitVec.ofNat_eq_ofNat]

/-- R137: `ordinal_set` replaces the ordinal. -/
theorem withOrdinal_eq_header (d : Word32) (o : BitVec 24) :
    withOrdinal d o = header o (kindField d) (reservedField d) := by
  have hmask : 0x000000FF#32 = header 0 (BitVec.allOnes 4) (BitVec.allOnes 4) := by decide
  conv_lhs => rw [withOrdinal, ← header_fields d, hmask, shifted_ordinal_eq_header, header_and, header_or]
  simp only [BitVec.and_allOnes, BitVec.and_zero, BitVec.or_zero, BitVec.zero_or, BitVec.ofNat_eq_ofNat]

section fields
variable (d : Word32) (k k' : BitVec 4) (o o' : BitVec 24)

@[simp] theorem kindField_withKind : kindField (withKind d k) = k := by rw [withKind_eq_header, kindField_header]

@[simp] theorem ordinalField_withKind : ordinalField (withKind d k) = ordinalField d := by
  rw [withKind_eq_header, ordinalField_header]

@[simp] theorem reservedField_withKind : reservedField (withKind d k) = reservedField d := by
  rw [withKind_eq_header, reservedField_header]

@[simp] theorem kindField_withOrdinal : kindField (withOrdinal d o) = kindField d := by
  rw [withOrdinal_eq_header, kindField_header]

@[simp] theorem ordinalField_withOrdinal : ordinalField (withOrdinal d o) = o := by
  rw [withOrdinal_eq_header, ordinalField_header]

@[simp] theorem reservedField_withOrdinal : reservedField (withOrdinal d o) = reservedField d := by
  rw [withOrdinal_eq_header, reservedField_header]

/-- The last setting of the kind counts (R131). -/
@[simp] theorem withKind_withKind : withKind (withKind d k') k = withKind d k := by
  rw [withKind_eq_header, ordinalField_withKind, reservedField_withKind, ← withKind_eq_header]

/-- The last setting of the ordinal counts (R131). -/
@[simp] theorem withOrdinal_withOrdinal : withOrdinal (withOrdinal d o') o = withOrdinal d o := by
  rw [withOrdinal_eq_header, kindField_withOrdinal, reservedField_withOrdinal, ← withOrdinal_eq_header]

/-- The setters commute (R131). -/
theorem withKind_withOrdinal : withKind (withOrdinal d o) k = withOrdinal (withKind d k) o := by
  rw [withKind_eq_header, ordinalField_withOrdinal, reservedField_withOrdinal, withOrdinal_eq_header,
    kindField_withKind, reservedField_withKind]
end fields

/-! ## The fields of operand A (R52) -/

/-- Bits [3:0] of a word are the reserved field of its low half (R62). -/
theorem reservedField_extractLsb' (d : Word64) : reservedField (d.extractLsb' 0 32) = d.extractLsb' 0 4 :=
  BitVec.extractLsb'_extractLsb'_of_le (by norm_num)

section operandA
variable (c : Command)

theorem ordinalField_operandLow : ordinalField (operandLow c) = c.a.extractLsb' 8 24 :=
  BitVec.extractLsb'_extractLsb'_of_le (by norm_num)

theorem reservedField_operandLow : reservedField (operandLow c) = c.a.extractLsb' 0 4 :=
  reservedField_extractLsb' c.a

theorem withKind_operandLow (k : BitVec 4) :
    withKind (operandLow c) k = c.a.extractLsb' 8 24 ++ k ++ c.a.extractLsb' 0 4 := by
  rw [withKind_eq_header, header, ordinalField_operandLow, reservedField_operandLow]

/-- The kind and the reserved bits are the low byte (R62, R137). -/
theorem withOrdinal_operandLow (o : BitVec 24) : withOrdinal (operandLow c) o = o ++ c.a.extractLsb' 0 8 := by
  have hlow : c.a.extractLsb' 4 4 ++ c.a.extractLsb' 0 4 = c.a.extractLsb' 0 8 :=
    BitVec.extractLsb'_append_extractLsb'_eq_extractLsb' rfl
  rw [withOrdinal_eq_header, header, kindField_operandLow, reservedField_operandLow, BitVec.append_assoc, hlow,
    BitVec.cast_eq]
end operandA

/-- A zero-extended detail given back as operand A is the detail (R67). -/
@[simp] theorem extractLsb'_zext64_low (v : Word32) : (zext64 v).extractLsb' 0 32 = v := by
  rw [zext64, BitVec.extractLsb'_setWidth_of_le (by norm_num), BitVec.extractLsb'_eq_self]

/-! ## What the five operations answer -/

/-- An answer of count 0 changes the response and nothing else. -/
theorem respond_eq_answered (st : Status) (r : Word64) (s : State) : respond st r 0 s = answered s ⟨st, r, 0⟩ [] := by
  simp [answered, respond]

/-- A kind of at most 3 is a named one (R63, R162). -/
theorem kindStatus_eq (k : BitVec 4) : kindStatus k = if k.toNat ≤ 3 then .ok else .unrecognizedKind := by
  rw [kindStatus, ← ite_not]
  simp only [not_le, Nat.lt_succ_iff]

/-- Settles O45: the status is chosen by the kind, and both statuses carry it. -/
theorem kindGetReportsEveryKind : Obligations.KindGetReportsEveryKind := fun s b => by
  rw [exec, execKindGet_eq, respond_eq_answered, kindStatus_eq, kindField_operandLow, zext64]

/-- Settles O46: the mask and the shift replace the kind field. -/
theorem kindSetInsertsKind : Obligations.KindSetInsertsKind := fun s b => by
  rw [exec, execKindSet, returnOk_eq, respond_eq_answered, withKind_operandLow, zext64, operandKind]

/-- Settles O47. -/
theorem ordinalGetExtractsOrdinal : Obligations.OrdinalGetExtractsOrdinal := fun s b => by
  rw [exec, execOrdinalGet, returnOk_eq, respond_eq_answered, ordinalField_operandLow, zext64]

/-- Settles O48: the mask and the shift replace the ordinal field. -/
theorem ordinalSetInsertsOrdinal : Obligations.OrdinalSetInsertsOrdinal := fun s b => by
  rw [exec, execOrdinalSet, returnOk_eq, respond_eq_answered, withOrdinal_operandLow, zext64, operandOrdinal]

/-- Settles O51: without a buffer, or with a short one, no byte is read; otherwise four reads give the four bytes. -/
theorem initializeCopiesFourBytes : Obligations.InitializeCopiesFourBytes := by
  refine fun s b => ⟨fun b0 b1 b2 b3 hs hlen hb => ?_, fun hp => ?_, fun hs hlen => ?_⟩
  · exact initDetail_ok (strict := b) hs.1 (truthfulRead_iff.2 hs.2) hlen hb
  · rw [exec, execInitDetail, withReadBuffer_absent _ hp, respond_eq_answered]
  · rw [exec, execInitDetail, withReadBuffer_truthful _ hs.1 (truthfulRead_iff.2 hs.2), lengthStatus, if_pos hlen,
      ← respond_eq_answered, ← raise_eq]

/-! ## Sequences of header commands (R131, R141) -/

section responses
variable (s : State) (b : Bool) (d : Word64)

theorem responseOf_kindGet (x : Word32) : responseOf (exec (.kindGet b) (withOperands s d x)) =
    some ⟨kindStatus (kindField (d.extractLsb' 0 32)), zext64 (kindField (d.extractLsb' 0 32)), 0⟩ := by
  rw [exec, execKindGet_eq]
  rfl

theorem responseOf_kindSet (k : Word32) : responseOf (exec (.kindSet b) (withOperands s d k)) =
    some ⟨.ok, zext64 (withKind (d.extractLsb' 0 32) (k.extractLsb' 0 4)), 0⟩ := rfl

theorem responseOf_ordinalGet (x : Word32) : responseOf (exec (.ordinalGet b) (withOperands s d x)) =
    some ⟨.ok, zext64 (ordinalField (d.extractLsb' 0 32)), 0⟩ := rfl

theorem responseOf_ordinalSet (o : Word32) : responseOf (exec (.ordinalSet b) (withOperands s d o)) =
    some ⟨.ok, zext64 (withOrdinal (d.extractLsb' 0 32) (o.extractLsb' 0 24)), 0⟩ := rfl
end responses

theorem extractLsb'_zext64_reserved (v : Word32) : (zext64 v).extractLsb' 0 4 = reservedField v := by
  rw [← reservedField_extractLsb', extractLsb'_zext64_low]

/-- Settles O49: each law is one about the fields of the two details that the setters answer. -/
theorem fieldsAreIndependent : Obligations.FieldsAreIndependent := by
  intro s b d k k' o o' rk ro rk' ro' hk ho hk' ho'
  rw [responseOf_kindSet] at hk hk'
  rw [responseOf_ordinalSet] at ho ho'
  obtain rfl := Option.some.inj hk
  obtain rfl := Option.some.inj ho
  obtain rfl := Option.some.inj hk'
  obtain rfl := Option.some.inj ho'
  simp only [responseOf_kindGet, responseOf_kindSet, responseOf_ordinalGet, responseOf_ordinalSet,
    extractLsb'_zext64_low]
  refine ⟨?ordinalKept, ?kindKept, ?reservedKeptByKindSet, ?reservedKeptByOrdinalSet, ?lastKind, ?lastOrdinal, ?commute⟩
  case ordinalKept => rw [ordinalField_withKind]
  case kindKept => rw [kindField_withOrdinal]
  case reservedKeptByKindSet => rw [extractLsb'_zext64_reserved, reservedField_withKind, reservedField_extractLsb']
  case reservedKeptByOrdinalSet =>
    rw [extractLsb'_zext64_reserved, reservedField_withOrdinal, reservedField_extractLsb']
  case lastKind => rw [withKind_withKind]
  case lastOrdinal => rw [withOrdinal_withOrdinal]
  case commute => rw [withKind_withOrdinal]

/-- A 32-bit kind operand below 16 is its low four bits. -/
theorem toNat_kind_operand {k : Word32} (h : k.toNat < 16) : (k.extractLsb' 0 4).toNat = k.toNat := by
  rw [BitVec.extractLsb'_toNat, Nat.shiftRight_zero, Nat.mod_eq_of_lt h]

theorem zext64_kind_operand {k : Word32} (h : k.toNat < 16) : zext64 (k.extractLsb' 0 4) = k.setWidth 64 :=
  BitVec.eq_of_toNat_eq <| by rw [zext64, BitVec.toNat_setWidth, BitVec.toNat_setWidth, toNat_kind_operand h]

/-- Settles O50: the setters commute, so in either order the detail holds both fields as they were set. -/
theorem headerRoundTrip : Obligations.HeaderRoundTrip := by
  intro s b d k o r1 r2 hk hset
  have hr2 : r2.r = zext64 (withOrdinal (withKind (d.extractLsb' 0 32) (k.extractLsb' 0 4)) (o.extractLsb' 0 24)) := by
    rcases hset with ⟨h1, h2⟩ | ⟨h1, h2⟩
    · rw [responseOf_kindSet] at h1
      obtain rfl := Option.some.inj h1
      rw [responseOf_ordinalSet, extractLsb'_zext64_low] at h2
      obtain rfl := Option.some.inj h2
      rfl
    · rw [responseOf_ordinalSet] at h1
      obtain rfl := Option.some.inj h1
      rw [responseOf_kindSet, extractLsb'_zext64_low, withKind_withOrdinal] at h2
      obtain rfl := Option.some.inj h2
      rfl
  rw [hr2, responseOf_kindGet, responseOf_ordinalGet, extractLsb'_zext64_low]
  constructor
  · rw [kindField_withOrdinal, kindField_withKind, kindStatus_eq, toNat_kind_operand hk, zext64_kind_operand hk]
  · rw [ordinalField_withOrdinal, zext64]

end Sys2Proof.Machine

/-! # When each status is answered, and other agents beside a command (spec/60_exceptions.md) -/

namespace Sys2Proof.Machine

open Sys2Proof.Claims

/-! ## Another agent that does not collide comes first or last (R172) -/

/-- A command that has no collision follows the other agent's accesses (log entry 16). -/
theorem perform_issueBeside_disjoint {c : Command} {others : List Touch} {s : State} (hr : s.rst = false)
    (hs : shares c others = false) :
    perform (.issueBeside c others) s = runCommand (accept c (applyTouches others s)) := by
  rw [perform, if_pos (cmdReady_iff.2 hr), hs, if_neg (by simp)]

section ignores
variable {s s' : State} (hc : s'.cmd = s.cmd)
include hc

/-- An operation that ignores the buffer answers its command record, whatever the memory holds (R33). -/
theorem exec_sameAnswer_of_ignores {i : Instr} (hi : bufferUse i = .ignores) :
    SameAnswer s s' (exec i s) (exec i s') := by
  cases i with
  | readVarintU32 _ | readVarintU64 _ | readVarintI32 _ | readVarintI64 _ | initDetail _ | writeVarintU32 _
  | writeVarintU64 _ | writeVarintI32 _ | writeVarintI64 _ => exact absurd hi (by simp [bufferUse])
  | kindGet b =>
    simp only [exec, execKindGet_eq, hc]
    exact sameAnswer_of_respond_only _ _ _
  | kindSet b | ordinalGet b | ordinalSet b =>
    simp only [exec, execKindSet, execOrdinalGet, execOrdinalSet, returnOk_eq, hc]
    exact sameAnswer_of_respond_only _ _ _

/-- So does a reserved word (R55). -/
theorem runCommand_sameAnswer_of_ignores (hu : commandUse s.cmd = .ignores) :
    SameAnswer s s' (runCommand s) (runCommand s') := by
  cases hd : decodeWord s.cmd.word with
  | ok i =>
    rw [runCommand_ok hd, runCommand_ok (i := i) (by rw [hc, hd])]
    exact exec_sameAnswer_of_ignores hc ((commandUse_ok hd).symm.trans hu)
  | error e =>
    rw [runCommand_error hd, runCommand_error (e := e) (by rw [hc, hd])]
    exact sameAnswer_of_respond_only _ _ _
end ignores

section disjoint
variable {c : Command} {others : List Touch} (hs : shares c others = false)
include hs

/-- The other agent leaves the buffer of a command that uses it. -/
theorem byteAt_applyTouches_inBuffer (hu : commandUse c ≠ .ignores) (s : State) {addr : Nat}
    (ha : inBuffer c addr = true) :
    Memory.byteAt (applyTouches others s).mem addr = Memory.byteAt s.mem addr :=
  byteAt_applyTouches_other s fun v hv => by
    rw [inBuffer_of_not_shares (v := v) hs hv hu] at ha
    exact absurd ha (by simp)

theorem sameBuffer_applyTouches (hu : commandUse c ≠ .ignores) (hp : c.buf.present = true) (s : State) :
    sameBuffer (accept c s) (accept c (applyTouches others s)) := by
  intro off ho
  have hb : Memory.byteAt (applyTouches others s).mem (bufferAddr c off) = Memory.byteAt s.mem (bufferAddr c off) :=
    byteAt_applyTouches_inBuffer hs hu s
      (inBuffer_iff.2 ⟨hp, Nat.le_add_right _ _, Nat.add_lt_add_left ho _⟩)
  exact ⟨hb, by simp [readableAt, hb], by simp [writableAt, hb]⟩

/-- A command that is answered alone gives the same answer after the other agent's accesses (R172). -/
theorem runCommand_applyTouches_sameAnswer {s t : State} (h : runCommand (accept c s) = .next t) :
    SameAnswer (accept c s) (accept c (applyTouches others s)) (runCommand (accept c s))
      (runCommand (accept c (applyTouches others s))) := by
  by_cases hu : commandUse c = .ignores
  · exact runCommand_sameAnswer_of_ignores rfl hu
  · exact runCommand_sameBuffer rfl (fun hp => sameBuffer_applyTouches hs hu hp s) h

/-- The bytes of memory do not depend on the order either: an address in a writer's buffer is the command's alone, every
other is the other agent's alone. -/
theorem byteAt_applyTouches_comm {s : State} {r : Response} {as : List Access} {bs : List Byte}
    (h : runCommand (accept c s) = .next ((accept c s).after r as bs))
    (h' : runCommand (accept c (applyTouches others s)) = .next ((accept c (applyTouches others s)).after r as bs))
    (addr : Nat) :
    Memory.byteAt ((accept c (applyTouches others s)).after r as bs).mem addr =
      Memory.byteAt (applyTouches others ((accept c s).after r as bs)).mem addr := by
  by_cases ha : commandUse c ≠ .writes ∨ inBuffer c addr = false
  · rw [runCommand_byteAt h' ha]
    exact byteAt_applyTouches_congr others (runCommand_byteAt h ha).symm
  · obtain ⟨hu, hin⟩ : commandUse c = .writes ∧ inBuffer c addr = true := by simpa using ha
    have hkept := fun s => byteAt_applyTouches_inBuffer hs (by simp [hu]) s hin
    rw [hkept]
    simp only [State.after, byteAt_storeBytes, accept_mem, accept_cmd, hkept]
end disjoint

/-- Settles O12: the other agent changes nothing that the command looks at, so the command's answer is the same in
either order; and no address of memory is changed by both. -/
theorem disjointAgentsSerialize : Obligations.DisjointAgentsSerialize := by
  intro s t c others rest hp hr hs h
  obtain ⟨r, as, bs, he, he'⟩ := runCommand_applyTouches_sameAnswer hs h
  obtain rfl := Host.Outcome.next.inj (h.symm.trans he)
  have hstep := (step_cons hp).trans
    ((perform_issueBeside_disjoint (s := { s with pending := rest }) hr hs).trans he')
  exact ⟨_, hstep, rfl, rfl, applyTouches_pending others _, byteAt_applyTouches_comm hs he he', he'⟩

/-! ## An absent buffer (R161, R167) -/

/-- A reader finds an absent buffer before any access (R87). -/
theorem varintRead_absent {w cap : Nat} {strict : Bool} {s : State} (hp : s.cmd.buf.present = false) :
    varintRead w cap strict s = .next (answered s ⟨.invalidArgument, 0, 0⟩ []) := by
  rw [varintRead, withReadBuffer_absent _ hp, respond_eq_answered]

/-- Settles O24: the presence test stands first in every operation that uses the buffer. -/
theorem absentBufferIsInvalidArgument : Obligations.AbsentBufferIsInvalidArgument := by
  intro i s hu hp
  cases i with
  | readVarintU32 b | readVarintU64 b | readVarintI32 b | readVarintI64 b => exact varintRead_absent hp
  | writeVarintU32 b | writeVarintU64 b | writeVarintI32 b | writeVarintI64 b => exact varintWrite_absent hp
  | initDetail b =>
    obtain ⟨-, habsent, -⟩ := initializeCopiesFourBytes s b
    exact habsent hp
  | kindGet _ | kindSet _ | ordinalGet _ | ordinalSet _ => exact absurd rfl hu

/-! ## The status of a reader (R84 to R87, R164) -/

/-- The varint has not ended inside a declared length below the cap (R87). -/
def UnterminatedShort (cap : Nat) (s : State) : Prop := s.cmd.buf.len < cap ∧ continuesTo s s.cmd.buf.len

/-- No byte up to the cap ends the varint (R85, R86). -/
def UnterminatedAtCap (cap : Nat) (s : State) : Prop := cap ≤ s.cmd.buf.len ∧ continuesTo s cap

/-- The condition of each status of a reader on a present buffer (R174). -/
def ReaderAnswers (cap : Nat) (strict : Bool) (s : State) : Status → Prop
  | .ok => ¬ UnterminatedShort cap s ∧ ¬ (strict = true ∧ UnterminatedAtCap cap s)
  | .invalidArgument => UnterminatedShort cap s
  | .truncated => strict = true ∧ UnterminatedAtCap cap s
  | .unrecognizedKind | .illegalOp => False

theorem not_atCap_of_short {cap : Nat} {s : State} (h : UnterminatedShort cap s) : ¬ UnterminatedAtCap cap s :=
  fun hcap => Nat.not_le.2 h.1 hcap.1

theorem continuesTo_succ {s : State} {i : Nat} {b : Byte} (h : continuesTo s i) (hb : bufferByte s i = some b)
    (hc : continues b = true) : continuesTo s (i + 1) := by
  intro off ho
  rcases Nat.lt_succ_iff_lt_or_eq.1 ho with hlt | rfl
  · exact h off hlt
  · exact ⟨b, hb, hc⟩

/-- A byte with bit 7 clear stands in the way. -/
theorem not_continuesTo {s : State} {i n : Nat} {b : Byte} (hb : bufferByte s i = some b) (hc : continues b = false)
    (hi : i < n) : ¬ continuesTo s n := by
  intro h
  obtain ⟨b', hb', hc'⟩ := h i hi
  obtain rfl := Option.some.inj (hb.symm.trans hb')
  exact absurd hc' (by simp [hc])

/-- What a read loop answers, its bytes so far all having bit 7 set (R80, R163). -/
theorem readLoop_status {w : Nat} {strict : Bool} {left i : Nat} {acc : BitVec w} {s t : State} {r : Response}
    (hi : i ≤ s.cmd.buf.len) (hcont : continuesTo s i) (h : readLoop w strict left i acc s = .next t)
    (hr : t.rsp = some r) : ReaderAnswers (i + left) strict s r.status := by
  induction left generalizing i acc s with
  | zero =>
    have hcap : UnterminatedAtCap i s := ⟨hi, hcont⟩
    cases strict with
    | false =>
      obtain rfl := Host.Outcome.next.inj h
      obtain rfl := Option.some.inj hr
      exact ⟨fun h => not_atCap_of_short h hcap, by simp⟩
    | true =>
      obtain rfl := Host.Outcome.next.inj h
      obtain rfl := Option.some.inj hr
      exact ⟨rfl, hcap⟩
  | succ left ih =>
    rw [readLoop] at h
    split at h
    next hlen =>
      obtain rfl := Host.Outcome.next.inj h
      obtain rfl := Option.some.inj hr
      obtain rfl : i = s.cmd.buf.len := Nat.le_antisymm hi hlen
      exact ⟨Nat.lt_add_of_pos_right left.succ_pos, hcont⟩
    next hlen =>
      split at h
      next => exact absurd h (by simp)
      next b s1 hm =>
        obtain ⟨-, hb, rfl⟩ := memRead_some hm
        split at h
        next hc =>
          rw [← Nat.succ_add_eq_add_succ]
          exact ih (s := s.withAccesses [.read i]) (Nat.not_le.1 hlen) (continuesTo_succ hcont hb hc) h
        next hc =>
          obtain rfl := Host.Outcome.next.inj h
          obtain rfl := Option.some.inj hr
          have hstop := fun n => not_continuesTo (n := n) hb (Bool.eq_false_iff.2 hc)
          exact ⟨fun ⟨_, hn⟩ => hstop _ (Nat.not_le.1 hlen) hn, fun ⟨_, _, hn⟩ => hstop _ (by omega) hn⟩

/-- What a reader answers on a buffer (R174). -/
theorem varintRead_status {w cap : Nat} {strict : Bool} {s t : State} {r : Response} (hp : s.cmd.buf.present = true)
    (h : varintRead w cap strict s = .next t) (hr : t.rsp = some r) : ReaderAnswers cap strict s r.status := by
  rw [varintRead, withReadBuffer_truthful _ hp (by simpa [hp] using truthful_of_varintRead h)] at h
  simpa using readLoop_status (Nat.zero_le _) (fun off ho => absurd ho (Nat.not_lt_zero off)) h hr

/-! ## The matrix (R174), operation by operation -/

/-- The response given is that of the next state known. -/
theorem response_eq {o : Result} {t u : State} {r x : Response} (ho : o = .next u) (hu : u.rsp = some x)
    (h : o = .next t) (hr : t.rsp = some r) : r = x := by
  obtain rfl := Host.Outcome.next.inj (h.symm.trans ho)
  exact Option.some.inj (hr.symm.trans hu)

section matrix
variable {s t : State} {r : Response} (hr : t.rsp = some r)
include hr

theorem varintRead_matrix {w cap : Nat} {strict : Bool} (h : varintRead w cap strict s = .next t) :
    (r.status = .invalidArgument ↔ s.cmd.buf.present = false ∨ UnterminatedShort cap s) ∧
      (r.status = .truncated ↔ s.cmd.buf.present = true ∧ strict = true ∧ UnterminatedAtCap cap s) ∧
      r.status ≠ .unrecognizedKind ∧ r.status ≠ .illegalOp := by
  cases hp : s.cmd.buf.present with
  | false =>
    obtain rfl := response_eq (varintRead_absent hp) rfl h hr
    simp
  | true =>
    have hst := varintRead_status hp h hr
    cases hs : r.status <;> simp only [hs, ReaderAnswers] at hst
    case ok =>
      obtain ⟨hshort, hcap⟩ := hst
      simpa [hshort] using hcap
    case invalidArgument => simp [hst, not_atCap_of_short hst]
    case truncated =>
      obtain ⟨hstrict, hcap⟩ := hst
      have hshort : ¬ UnterminatedShort cap s := fun h => not_atCap_of_short h hcap
      simp [hstrict, hcap, hshort]

theorem varintWrite_matrix {w cap : Nat} {v : BitVec w} (hw : w ≤ 7 * cap) (hc : 1 ≤ cap)
    (h : varintWrite cap v s = .next t) :
    (r.status = .invalidArgument ↔ s.cmd.buf.present = false ∨ s.cmd.buf.len < varintLen v) ∧
      (r.status = .ok ∨ r.status = .invalidArgument) := by
  rcases varintWrite_cases (s := s) (v := v) hw hc with
    ⟨hp, he⟩ | ⟨-, -, he⟩ | ⟨-, -, hlen, he⟩ | ⟨hp, -, hlen, he⟩ 
  · obtain rfl := response_eq he rfl h hr
    simp [hp]
  · exact absurd (he.symm.trans h) (by simp)
  · obtain rfl := response_eq he rfl h hr
    simp [hlen]
  · obtain rfl := response_eq he rfl h hr
    simp [hp, hlen]

theorem kindGet_matrix {b : Bool} (h : exec (.kindGet b) s = .next t) :
    (r.status = .unrecognizedKind ↔ 4 ≤ (s.cmd.a.extractLsb' 4 4).toNat) ∧
      (r.status = .ok ∨ r.status = .unrecognizedKind) := by
  obtain rfl := response_eq (kindGetReportsEveryKind s b) rfl h hr
  by_cases hk : (s.cmd.a.extractLsb' 4 4).toNat ≤ 3
  · rw [if_pos hk]
    exact ⟨iff_of_false (by simp) (by omega), .inl rfl⟩
  · rw [if_neg hk]
    exact ⟨iff_of_true rfl (by omega), .inr rfl⟩

theorem setters_and_ordinalGet_matrix {b : Bool}
    (h : exec (.kindSet b) s = .next t ∨ exec (.ordinalGet b) s = .next t ∨ exec (.ordinalSet b) s = .next t) :
    r.status = .ok := by
  rcases h with h | h | h
  · rw [response_eq (kindSetInsertsKind s b) rfl h hr]
  · rw [response_eq (ordinalGetExtractsOrdinal s b) rfl h hr]
  · rw [response_eq (ordinalSetInsertsOrdinal s b) rfl h hr]

theorem initDetail_matrix {b : Bool} (h : exec (.initDetail b) s = .next t) :
    (r.status = .invalidArgument ↔ s.cmd.buf.present = false ∨ s.cmd.buf.len < 4) ∧
      (r.status = .ok ∨ r.status = .invalidArgument) := by
  obtain ⟨hfour, habsent, hshort⟩ := initializeCopiesFourBytes s b
  cases hp : s.cmd.buf.present with
  | false =>
    obtain rfl := response_eq (habsent hp) rfl h hr
    simp
  | true =>
    have hs : CanRead s := ⟨hp, truthfulRead_iff.1 (by simpa [hp] using truthful_of_initDetail (strict := b) h)⟩
    by_cases hlen : s.cmd.buf.len < 4
    · obtain rfl := response_eq (hshort hs hlen) rfl h hr
      simp [hlen]
    · obtain ⟨bs, hl, hb⟩ := exists_bytes 4 (s := s) fun off ho => hs.2 off (by omega)
      match bs, hl with
      | [b0, b1, b2, b3], _ =>
        obtain rfl := response_eq (hfour b0 b1 b2 b3 hs (by omega) hb) rfl h hr
        simp [hlen]
end matrix

/-- Settles O25: the rows of the matrix, each from what its operation answers. -/
theorem statusMatrix : Obligations.StatusMatrix :=
  ⟨readers_of fun _ _ _ _ hop b s _ _ h hr => varintRead_matrix hr ((hop b s).symm.trans h),
    writers_of fun _ _ _ _ hw hc _ hop b s _ _ h hr => varintWrite_matrix hr hw hc ((hop b s).symm.trans h),
    fun _ _ _ _ h hr => kindGet_matrix hr h, fun _ _ _ _ h hr => setters_and_ordinalGet_matrix hr h,
    fun _ _ _ _ h hr => initDetail_matrix hr h⟩

end Sys2Proof.Machine

/-! # Reset, an abandoned command and the launch premise (spec/70_reset_and_hazards.md) -/

namespace Sys2Proof.Machine

open Sys2Proof.Claims

/-! ## An operation answers exactly on a truthful buffer (R194) -/

theorem indistinct_refl (s : State) : Indistinct s s := indistinct_of_sameBuffer rfl fun _ _ _ => ⟨rfl, rfl, rfl⟩

/-- The launch premise of U2 is sufficient: no state is told apart from itself, so on a truthful buffer there is an
answer. -/
theorem exec_of_truthfulFor {i : Instr} {s : State} (h : truthfulFor i s = true) : ∃ t, exec i s = .next t := by
  obtain ⟨r, as, bs, he, -⟩ := exec_sameAnswer (indistinct_refl s) h h
  exact ⟨_, he⟩

theorem exec_next_iff {i : Instr} {s : State} : (∃ t, exec i s = .next t) ↔ truthfulFor i s = true :=
  ⟨fun ⟨_, h⟩ => truthfulFor_of_exec h, exec_of_truthfulFor⟩

section untruthful
variable {s : State} (hp : s.cmd.buf.present = true) (ht : truthfulRead s = false)
include hp ht

theorem withReadBuffer_untruthful (go : State → Result) : withReadBuffer s go = .refused .untruthfulBuffer := by
  simp [withReadBuffer, hp, ht]

theorem varintRead_untruthful {w cap : Nat} {strict : Bool} :
    varintRead w cap strict s = .refused .untruthfulBuffer := withReadBuffer_untruthful hp ht _

theorem initDetail_untruthful {strict : Bool} : execInitDetail strict s = .refused .untruthfulBuffer :=
  withReadBuffer_untruthful hp ht _
end untruthful

theorem exec_untruthful {i : Instr} {s : State} (h : truthfulFor i s = false) :
    exec i s = .refused .untruthfulBuffer := by
  cases i with
  | readVarintU32 b | readVarintU64 b | readVarintI32 b | readVarintI64 b =>
    obtain ⟨hp, ht⟩ : s.cmd.buf.present = true ∧ truthfulRead s = false := by simpa [truthfulFor, bufferUse] using h
    exact varintRead_untruthful hp ht
  | initDetail b =>
    obtain ⟨hp, ht⟩ : s.cmd.buf.present = true ∧ truthfulRead s = false := by simpa [truthfulFor, bufferUse] using h
    exact initDetail_untruthful (strict := b) hp ht
  | writeVarintU32 b | writeVarintU64 b | writeVarintI32 b | writeVarintI64 b =>
    obtain ⟨hp, ht⟩ : s.cmd.buf.present = true ∧ truthfulWrite s = false := by simpa [truthfulFor, bufferUse] using h
    exact varintWrite_untruthful hp ht
  | kindGet b | kindSet b | ordinalGet b | ordinalSet b => exact absurd h (by simp [truthfulFor, bufferUse])

/-- Settles O17. -/
theorem operationAnswersOnTruthfulBuffer : Obligations.OperationAnswersOnTruthfulBuffer :=
  fun _ _ => ⟨exec_of_truthfulFor, exec_untruthful⟩

/-- A reserved word is always answered; an operation is on a truthful buffer (R165, R194). -/
theorem runCommand_next_iff {s : State} : (∃ t, runCommand s = .next t) ↔ commandTruthful s = true := by
  cases hd : decodeWord s.cmd.word with
  | ok i => rw [runCommand_ok hd, exec_next_iff, commandTruthful, hd]
  | error e => simp [runCommand_error hd, commandTruthful, hd]

/-! ## A block held in reset takes no command (R191) -/

theorem cmdReady_of_rst {s : State} (hr : s.rst = true) : cmdReady s = false := by simp [cmdReady, hr]

section inReset
variable {s : State} (hr : cmdReady s = false)
include hr

theorem perform_issue_inReset (c : Command) : perform (.issue c) s = .next s := if_neg (by simp [hr])

theorem perform_issueThenReset_inReset (c : Command) : perform (.issueThenReset c) s = .next s := if_neg (by simp [hr])

/-- The other agent is not held (log entry 11). -/
theorem perform_issueBeside_inReset (c : Command) (others : List Touch) :
    perform (.issueBeside c others) s = .next (applyTouches others s) := if_neg (by simp [hr])
end inReset

/-- Settles O8. -/
theorem resetHoldsTheBlock : Obligations.ResetHoldsTheBlock := by
  intro s rest
  refine ⟨fun hp => ⟨_, step_cons hp, rfl, rfl, rfl, rfl, rfl⟩, fun hr => ?_,
    fun hp => ⟨_, step_cons hp, rfl, rfl, rfl, rfl⟩⟩
  have hr' : cmdReady { s with pending := rest } = false := hr
  exact ⟨fun c hp => (step_cons hp).trans (perform_issue_inReset hr' c),
    fun c hp => (step_cons hp).trans (perform_issueThenReset_inReset hr' c),
    fun c others hp => (step_cons hp).trans (perform_issueBeside_inReset hr' c others)⟩

/-! ## An abandoned command (R192) -/

theorem perform_issueThenReset {s : State} (c : Command) (hr : s.rst = false) :
    perform (.issueThenReset c) s = abandon (accept c s) := if_pos (cmdReady_iff.2 hr)

/-- What abandoning leaves is determined by the accesses that the command would have made. -/
theorem abandon_of_next {s u : State} (h : runCommand s = .next u) :
    abandon s = .next { enterReset s with
      mem := abandonedMem s.freeCount s.cmd.buf.base u.accesses s.mem, freeCount := s.freeCount + 1 } := by
  rw [abandon, h]

/-- A command can be abandoned exactly when it could have been answered (log entry 15). -/
theorem abandon_next_iff {s : State} : (∃ t, abandon s = .next t) ↔ ∃ u, runCommand s = .next u := by
  refine ⟨fun ⟨t, h⟩ => ?_, fun ⟨u, h⟩ => ⟨_, abandon_of_next h⟩⟩
  unfold abandon at h
  split at h
  next u hu => exact ⟨u, hu⟩
  all_goals exact absurd h (by simp)

theorem step_issueThenReset {s u : State} {c : Command} {rest : List HostAct}
    (hp : s.pending = .issueThenReset c :: rest) (hr : s.rst = false)
    (h : runCommand (accept c { s with pending := rest }) = .next u) :
    step s = .next { enterReset (accept c { s with pending := rest }) with
      mem := abandonedMem s.freeCount c.buf.base u.accesses s.mem, freeCount := s.freeCount + 1 } :=
  (step_cons hp).trans ((perform_issueThenReset (s := { s with pending := rest }) c hr).trans (abandon_of_next h))

/-- Unless it writes a buffer that is there, a command answers without writing. -/
theorem runCommand_answersReading {s t : State} (h : runCommand s = .next t)
    (hw : commandUse s.cmd ≠ .writes ∨ s.cmd.buf.present = false) : AnswersReading s t := by
  cases hd : decodeWord s.cmd.word with
  | ok i =>
    rw [runCommand_ok hd] at h
    rw [commandUse_ok hd] at hw
    rcases exec_next h with hread | ⟨hi, _, _, -, -, -, hp, -⟩
    · exact hread
    · exact absurd hi (hw.resolve_right (by simp [hp]))
  | error e =>
    rw [runCommand_error hd] at h
    exact answersReading_of_respond (by simp [Response.shape]) (Host.Outcome.next.inj h)

/-- A command that writes nothing leaves nothing behind. -/
theorem abandonedMem_of_answersReading {s t : State} (ha : s.accesses = []) (h : AnswersReading s t) (k base : Nat)
    (m : List Host.Cell) : abandonedMem k base t.accesses m = m := by
  obtain ⟨n, -, st, r, x, rfl, -⟩ := h
  have has : (respond st r x (s.withAccesses (readsTo n))).accesses = readsFrom 0 n := by simp [ha, readsTo_eq]
  rw [has, abandonedMem_readsFrom]

/-- Every address holds its old byte, or one that the command would have written there. -/
theorem byteAt_abandonedMem (k base : Nat) (as : List Access) (m : List Host.Cell) (addr : Nat) :
    Memory.byteAt (abandonedMem k base as m) addr = Memory.byteAt m addr ∨
      ∃ off v, .write off v ∈ as ∧ addr = base + off ∧ Memory.byteAt (abandonedMem k base as m) addr = some v := by
  induction as generalizing m with
  | nil => exact .inl rfl
  | cons x rest ih =>
    cases x with
    | read a =>
      exact (ih m).imp id fun ⟨off, v, hmem, haddr, hb⟩ => ⟨off, v, List.mem_cons_of_mem _ hmem, haddr, hb⟩
    | write a w =>
      rw [abandonedMem]
      rcases ih (if Config.abandonedByteLanded k a then Memory.store m (base + a) w else m) with
        hold | ⟨off, v, hmem, haddr, hb⟩
      · rw [hold]
        split
        next =>
          by_cases haddr : addr = base + a
          · exact .inr ⟨a, w, List.mem_cons_self, haddr, by rw [haddr, Memory.byteAt_store_same]⟩
          · exact .inl (Memory.byteAt_store_other m w haddr)
        next => exact .inl rfl
      · exact .inr ⟨off, v, List.mem_cons_of_mem _ hmem, haddr, hb⟩

theorem mem_writesOf {w off : Nat} {v : BitVec w} {b : Byte} (h : .write off b ∈ writesOf v) :
    off < varintLen v ∧ b = encodedByte v off := by
  simp only [writesOf, List.mem_map, List.mem_range, Access.write.injEq] at h
  obtain ⟨i, hi, rfl, rfl⟩ := h
  exact ⟨hi, rfl⟩

/-- Of an abandoned write each offset of the encoding is old or new, and every other address is old. -/
theorem byteAt_abandonedMem_writesOf (k base : Nat) {w : Nat} (v : BitVec w) (m : List Host.Cell) :
    (∀ i < varintLen v,
      Memory.byteAt (abandonedMem k base (writesOf v) m) (base + i) = Memory.byteAt m (base + i) ∨
        Memory.byteAt (abandonedMem k base (writesOf v) m) (base + i) = some (encodedByte v i)) ∧
      ∀ addr, addr < base ∨ base + varintLen v ≤ addr →
        Memory.byteAt (abandonedMem k base (writesOf v) m) addr = Memory.byteAt m addr := by
  have hbyte := byteAt_abandonedMem k base (writesOf v) m
  refine ⟨fun i _ => (hbyte (base + i)).imp id ?_, fun addr haddr => (hbyte addr).resolve_right ?_⟩
  · rintro ⟨off, b, hmem, hoff, hb⟩
    obtain rfl : i = off := Nat.add_left_cancel hoff
    rw [hb, (mem_writesOf hmem).2]
  · rintro ⟨off, b, hmem, hoff, -⟩
    have := (mem_writesOf hmem).1
    omega

/-- Settles O10: what is left behind is read off the accesses that the command would have made, which are reads, the
writes of the encoding, or none. -/
theorem abandonedCommand : Obligations.AbandonedCommand := by
  refine ⟨fun s c rest hp hr ht => ?_, writers_of fun w cap value op hw hc _ hop s c rest b hp hr hd hs => ?_⟩
  · obtain ⟨u, hu⟩ := runCommand_next_iff.2 (show commandTruthful (accept c { s with pending := rest }) = true from ht)
    have hmem (h : commandUse c ≠ .writes ∨ c.buf.present = false) :
        abandonedMem s.freeCount c.buf.base u.accesses s.mem = s.mem :=
      abandonedMem_of_answersReading (accept_accesses _ _) (runCommand_answersReading hu h) _ _ _
    exact ⟨_, step_issueThenReset hp hr hu, rfl, rfl, rfl, rfl,
      fun i hd hi => hmem (.inl (by rwa [commandUse_ok hd])),
      fun e hd => hmem (.inl (by simp [commandUse, hd])), fun habsent => hmem (.inr habsent)⟩
  · have hrun : runCommand (accept c { s with pending := rest }) =
        varintWrite cap (value c) (accept c { s with pending := rest }) := (runCommand_ok hd).trans (hop b _)
    have hs' : CanWrite (accept c { s with pending := rest }) := hs
    rcases Nat.lt_or_ge c.buf.len (varintLen (value c)) with hlen | hlen
    · exact ⟨_, step_issueThenReset hp hr (hrun.trans (varintWrite_short hs' hlen)),
        fun h => absurd hlen (Nat.not_lt.2 h), fun _ => rfl⟩
    · exact ⟨_, step_issueThenReset hp hr (hrun.trans (varintWrite_fits hw hc hs' hlen)),
        fun _ => byteAt_abandonedMem_writesOf _ _ _ _, fun h => absurd h (Nat.not_lt.2 hlen)⟩

/-! ## A step stops exactly when its act breaks the launch premise (U2, U3) -/

theorem perform_next_iff {act : HostAct} {s : State} : (∃ t, perform act s = .next t) ↔ launchable act s = true := by
  cases act with
  | hostWrite addr v => exact iff_of_true ⟨_, rfl⟩ rfl
  | setRst level => cases level <;> exact iff_of_true ⟨_, rfl⟩ rfl
  | issue c =>
    cases hr : s.rst with
    | true => exact iff_of_true ⟨_, perform_issue_inReset (cmdReady_of_rst hr) c⟩ (by simp [launchable, hr])
    | false => rw [perform_issue c hr, runCommand_next_iff]; simp [launchable, hr]
  | issueThenReset c =>
    cases hr : s.rst with
    | true => exact iff_of_true ⟨_, perform_issueThenReset_inReset (cmdReady_of_rst hr) c⟩ (by simp [launchable, hr])
    | false => rw [perform_issueThenReset c hr, abandon_next_iff, runCommand_next_iff]; simp [launchable, hr]
  | issueBeside c others =>
    cases hr : s.rst with
    | true =>
      exact iff_of_true ⟨_, perform_issueBeside_inReset (cmdReady_of_rst hr) c others⟩ (by simp [launchable, hr])
    | false =>
      cases hs : shares c others with
      | true => simp [perform_issueBeside_shared hr hs, launchable, hr, hs]
      | false => rw [perform_issueBeside_disjoint hr hs, runCommand_next_iff]; simp [launchable, hr, hs]

/-- Settles O13. -/
theorem launchableStepsComplete : Obligations.LaunchableStepsComplete := by
  intro s act rest hp
  rw [step_cons hp, perform_next_iff]

end Sys2Proof.Machine
